-- ==== Sys2Proof/Word.lean ====
section
/-! DEFINITION. The two word widths of the core (rule R7): the 8-bit byte and the 16-bit word. -/

namespace Sys2Proof

/-- An 8-bit value: a register, an operand byte or a byte of memory (rules R7, R21, R46). -/
abbrev Byte := BitVec 8

/-- A 16-bit value: an address, the stack pointer, the program counter or a register pair (rule R7). -/
abbrev Word := BitVec 16

end Sys2Proof
end

