-- ==== Sys2Proof/Config.lean ====
section
/-! DEFINITION. The named parameters of rule R8 and the one free value the model needs.

`TABLE`, `PREFIX_OPCODE` and `ADDR_WRAP` are the record `Params`. A machine state carries one (log entry 1), no step
changes it, and statements quantify over it. `MEM0` is an argument of `State.create`, `END_PC` of `runTo` and
`ERR_CYCLES` of `stepCall` (Machine/Interface.lean). -/

namespace Sys2Proof

/-- The parameter `TABLE` (rule R4): which entries of the instruction tables are populated. -/
inductive Table where
  /-- `GOBOY-DOC`: the one documented instruction, 0x31. -/
  | gobyDoc
  /-- `SM83-GK`: GOBOY-DOC plus the rows the spec supplies from general knowledge. -/
  | sm83gk
deriving DecidableEq, Repr

/-- The parameter `ADDR_WRAP` (rules R8, R56): what an address computed past 0xFFFF does. -/
inductive AddrWrap where
  /-- reduced modulo 2^16 -/
  | wrap
  /-- raises OutOfRangeAddress -/
  | fault
deriving DecidableEq, Repr

/-- The parameters of rule R8 that a step reads. -/
structure Params where
  table        : Table
  prefixOpcode : Byte
  addrWrap     : AddrWrap
deriving DecidableEq, Repr

/-- The parameters of the state right after reset. DESIGN CHOICE, unsafe (log entries 2, 3 and 4): `TABLE` is SM83-GK, the
larger configuration, so that every row of the opcode table runs; the other two are the reference values of rule R8. -/
def Config.params : Params :=
  { table := .sm83gk, prefixOpcode := 0xCB#8, addrWrap := .wrap }

/-- A FREE VALUE, safe (log entry 8): how far above 0x10000 the address lies that a failed `load_image` of `n` bytes at
`origin` reports. Rule R55 says that the load fails with OutOfRangeAddress and does not say with which address; rule R162
makes it an address outside the mapped space. Arguments: `origin`, then `n`. -/
opaque Config.loadFailExcess : Nat → Nat → Nat

end Sys2Proof
end

