-- ==== Sys2Proof/Syntax.lean ====
section
/-! DEFINITION. The instructions of spec/opcode_table.json, one constructor a row, and the record of one table entry.

An operand byte stands in the constructor; a register, pair or condition is implied by the opcode (rule R77), so it is part
of the constructor's name. `IndHl` in a name is the operand `(HL)`, the byte at the address HL. -/

namespace Sys2Proof

/-- The seven 8-bit storage registers (rule R21), in the order of the field `r` (rule R78), whose code 6 is `(HL)`. -/
inductive Reg where
  | b | c | d | e | h | l | a
deriving DecidableEq, Repr

/-- The conditions of the field `cc` (rule R79). -/
inductive Cond where
  | nz | z | nc | c
deriving DecidableEq, Repr

/-- Which instruction table an opcode was looked up in (rules R12, R160). -/
inductive TableId where
  | primary | extended
deriving DecidableEq, Repr

/-- One constructor per row of spec/opcode_table.json. -/
inductive Instr where
  /-- `LD SP,d16`, rule R120 -/
  | ldSpD16 (d16 : Word)
  /-- `NOP`, rule R135 -/
  | nop
  /-- `LD BC,d16`, rule R130 -/
  | ldBcD16 (d16 : Word)
  /-- `LD DE,d16`, rule R130 -/
  | ldDeD16 (d16 : Word)
  /-- `LD HL,d16`, rule R130 -/
  | ldHlD16 (d16 : Word)
  /-- `LD B,d8`, rule R131 -/
  | ldBD8 (d8 : Byte)
  /-- `LD C,d8`, rule R131 -/
  | ldCD8 (d8 : Byte)
  /-- `LD D,d8`, rule R131 -/
  | ldDD8 (d8 : Byte)
  /-- `LD E,d8`, rule R131 -/
  | ldED8 (d8 : Byte)
  /-- `LD H,d8`, rule R131 -/
  | ldHD8 (d8 : Byte)
  /-- `LD L,d8`, rule R131 -/
  | ldLD8 (d8 : Byte)
  /-- `LD A,d8`, rule R131 -/
  | ldAD8 (d8 : Byte)
  /-- `LD (HL),d8`, rule R132 -/
  | ldIndHlD8 (d8 : Byte)
  /-- `LD A,(HL)`, rule R133 -/
  | ldAIndHl
  /-- `LD (HL),A`, rule R134 -/
  | ldIndHlA
  /-- `ADD A,B`, rule R140 -/
  | addAB
  /-- `ADD A,C`, rule R140 -/
  | addAC
  /-- `ADD A,D`, rule R140 -/
  | addAD
  /-- `ADD A,E`, rule R140 -/
  | addAE
  /-- `ADD A,H`, rule R140 -/
  | addAH
  /-- `ADD A,L`, rule R140 -/
  | addAL
  /-- `ADD A,(HL)`, rule R141 -/
  | addAIndHl
  /-- `ADD A,A`, rule R140 -/
  | addAA
  /-- `ADC A,B`, rule R143 -/
  | adcAB
  /-- `ADC A,C`, rule R143 -/
  | adcAC
  /-- `ADC A,D`, rule R143 -/
  | adcAD
  /-- `ADC A,E`, rule R143 -/
  | adcAE
  /-- `ADC A,H`, rule R143 -/
  | adcAH
  /-- `ADC A,L`, rule R143 -/
  | adcAL
  /-- `ADC A,(HL)`, rule R144 -/
  | adcAIndHl
  /-- `ADC A,A`, rule R143 -/
  | adcAA
  /-- `SUB B`, rule R146 -/
  | subB
  /-- `SUB C`, rule R146 -/
  | subC
  /-- `SUB D`, rule R146 -/
  | subD
  /-- `SUB E`, rule R146 -/
  | subE
  /-- `SUB H`, rule R146 -/
  | subH
  /-- `SUB L`, rule R146 -/
  | subL
  /-- `SUB (HL)`, rule R147 -/
  | subIndHl
  /-- `SUB A`, rule R146 -/
  | subA
  /-- `ADD A,d8`, rule R142 -/
  | addAD8 (d8 : Byte)
  /-- `ADC A,d8`, rule R145 -/
  | adcAD8 (d8 : Byte)
  /-- `SUB d8`, rule R148 -/
  | subD8 (d8 : Byte)
  /-- `JP a16`, rule R150 -/
  | jpA16 (a16 : Word)
  /-- `JP NZ,a16`, rule R151 -/
  | jpNzA16 (a16 : Word)
  /-- `JP Z,a16`, rule R151 -/
  | jpZA16 (a16 : Word)
  /-- `JP NC,a16`, rule R151 -/
  | jpNcA16 (a16 : Word)
  /-- `JP C,a16`, rule R151 -/
  | jpCA16 (a16 : Word)
  /-- `JR e8`, rule R152 -/
  | jrE8 (e8 : Byte)
  /-- `JR NZ,e8`, rule R153 -/
  | jrNzE8 (e8 : Byte)
  /-- `JR Z,e8`, rule R153 -/
  | jrZE8 (e8 : Byte)
  /-- `JR NC,e8`, rule R153 -/
  | jrNcE8 (e8 : Byte)
  /-- `JR C,e8`, rule R153 -/
  | jrCE8 (e8 : Byte)
  /-- `PREFIX_OPCODE xx`: a pair whose second byte indexes the (empty) extended table, rules R84 and R105 -/
  | prefixed (xx : Byte)
  /-- a primary table entry without a descriptor, rules R82 and R104 -/
  | emptyPrimary (opcode : Byte)
deriving DecidableEq, Repr

/-- How a descriptor's instruction is made from its operand bytes: none (`P0`), one (`P1`) or two, low byte first (`P2`)
(rule R71). The meaning itself is `exec` of the instruction made. -/
inductive Handler where
  | implied (i : Instr)
  | imm8 (f : Byte → Instr)
  | imm16 (f : Word → Instr)

/-- The operand length of the descriptor (rules R70, R100). -/
def Handler.operandLength : Handler → Nat
  | .implied _ => 0
  | .imm8 _ => 1
  | .imm16 _ => 2

/-- An instruction descriptor (rule R100). `conditional` is `notTakenCycles.isSome`; the operand length is the handler's. -/
structure Descriptor where
  mnemonic       : String
  handler        : Handler
  baseCycles     : Nat
  notTakenCycles : Option Nat

end Sys2Proof
end

