-- ==== Sys2Proof/Machine/State.lean ====
section
/-! DEFINITION. The machine's state as plain data (rule R20), the reasons a step stops, and the state right after reset. -/

namespace Sys2Proof.Machine

/-- The Flags value: four independent booleans (rule R23). The packed byte F is computed from it (rules R22, R24). -/
structure Flags where
  /-- zero -/
  z : Bool
  /-- subtract -/
  n : Bool
  /-- half carry -/
  h : Bool
  /-- carry -/
  c : Bool
deriving DecidableEq, Repr

/-- The Memory Bus contents (rule R46): the bytes that differ from 0x00, by rising address. An address that is not listed
holds 0x00, so every 65536-byte array is one such list (rule R57; log entry 5 for the contents at reset). -/
abbrev Memory := List Host.Cell

/-- The canonical form of a memory: addresses strictly rising and within 0x0000-0xFFFF, no byte 0x00 listed. -/
def Memory.wf : Memory → Bool
  | [] => true
  | cell :: rest =>
    decide (cell.1 < 0x10000) && cell.2 != 0 && rest.all (fun other => decide (cell.1 < other.1)) && Memory.wf rest

/-- The architectural state of rule R20, with the parameters it runs under and the last cycle report. -/
structure State where
  /-- register A, the accumulator (rules R21, R34) -/
  a : Byte
  /-- register B (rule R21) -/
  b : Byte
  /-- register C (rule R21) -/
  c : Byte
  /-- register D (rule R21) -/
  d : Byte
  /-- register E (rule R21) -/
  e : Byte
  /-- register H (rule R21) -/
  h : Byte
  /-- register L (rule R21) -/
  l : Byte
  /-- the Flags value (rule R23) -/
  flags : Flags
  /-- the stack pointer (rule R31) -/
  sp : Word
  /-- the program counter (rule R32); within a step it is `pc0` until the handler writes it (rule R106) -/
  pc : Word
  /-- the Memory Bus contents (rule R46) -/
  mem : Memory
  /-- the parameters of rule R8 that a step reads; DESIGN CHOICE, no step writes them (log entry 1) -/
  cfg : Params
  /-- the cycles the last completed step returned (rule R108); DESIGN CHOICE, no step reads it (log entry 6) -/
  report : Nat
deriving DecidableEq, Repr

/-- The error outcomes of a step (rules R12, R160). Both are safe: the spec gives them, and a step that raises one writes
nothing (rule R109). -/
inductive Fault where
  /-- UnimplementedOpcode (rule R161): raised by an empty primary entry (rule R104) or an empty extended entry (rule R105),
  with the table, the byte looked up and `pc0`. Safe. -/
  | unimplementedOpcode (table : TableId) (opcode : Byte) (pc : Word)
  /-- OutOfRangeAddress (rule R162): raised by an address computed past 0xFFFF under `ADDR_WRAP = fault` (rule R56) and by
  the bus's own bounds check (rule R51), with the address. Safe. -/
  | outOfRangeAddress (addr : Nat)
deriving DecidableEq, Repr

/-- Why the model has no meaning for an instruction. -/
inductive Refusal where
  /-- No meaning written yet; raised by an arm of `exec` only. Safe. No arm raises it now. -/
  | notModelled (mnemonic : String)
deriving DecidableEq, Repr

/-- The state after creation (rules R38, R180) under parameters `p`, with the memory contents `MEM0` (rule R57): every
register and pointer zero, every flag false. -/
def State.create (p : Params) (mem0 : Memory) : State :=
  { a := 0, b := 0, c := 0, d := 0, e := 0, h := 0, l := 0
    flags := { z := false, n := false, h := false, c := false }
    sp := 0, pc := 0, mem := mem0, cfg := p, report := 0 }

/-- The state right after reset: creation (rule R38) with `MEM0` all zero and the parameters of Config.lean (DESIGN CHOICE,
unsafe: log entries 2 to 6). -/
def State.reset : State := State.create Config.params []

end Sys2Proof.Machine
end

