-- ==== Sys2Proof/Machine/Flags.lean ====
section
/-! DEFINITION. Packing of the Flags value and the three ALU operations (10_state.md rules R24, R25; 40_alu.md). The ALU is
exactly these three (rule R95). -/

namespace Sys2Proof.Machine

/-- `pack(flags)` (rule R24): Z, N, H, C in bits 7, 6, 5, 4, and bits 3-0 zero. -/
def Flags.pack (f : Flags) : Byte :=
  (BitVec.ofNat 8 f.z.toNat <<< 7) ||| (BitVec.ofNat 8 f.n.toNat <<< 6) |||
    (BitVec.ofNat 8 f.h.toNat <<< 5) ||| (BitVec.ofNat 8 f.c.toNat <<< 4)

/-- `unpack(b)` (rule R25); bits 3-0 are ignored. -/
def Flags.unpack (b : Byte) : Flags :=
  { z := b.getLsbD 7, n := b.getLsbD 6, h := b.getLsbD 5, c := b.getLsbD 4 }

/-- `ALU_ADD(a, n, f)` (rule R91); the incoming flags are not read. -/
def aluAdd (a n : Byte) (_f : Flags) : Byte × Flags :=
  let sum := a.toNat + n.toNat
  let result := BitVec.ofNat 8 (sum % 256)
  (result,
    { z := decide (result = 0)
      n := false
      h := decide ((a &&& 0xF).toNat + (n &&& 0xF).toNat > 0xF)
      c := decide (sum > 255) })

/-- `ALU_ADC(a, n, f)` (rule R92); of the incoming flags only C is read. -/
def aluAdc (a n : Byte) (f : Flags) : Byte × Flags :=
  let cin := f.c.toNat
  let sum := a.toNat + n.toNat + cin
  let result := BitVec.ofNat 8 (sum % 256)
  (result,
    { z := decide (result = 0)
      n := false
      h := decide ((a &&& 0xF).toNat + (n &&& 0xF).toNat + cin > 0xF)
      c := decide (sum > 255) })

/-- `ALU_SUB(a, n, f)` (rule R93); the incoming flags are not read. -/
def aluSub (a n : Byte) (_f : Flags) : Byte × Flags :=
  let result := BitVec.ofInt 8 ((a.toNat : Int) - (n.toNat : Int))
  (result,
    { z := decide (result = 0)
      n := true
      h := decide ((a &&& 0xF).toNat < (n &&& 0xF).toNat)
      c := decide (a.toNat < n.toNat) })

end Sys2Proof.Machine
end

