-- ==== Sys2Proof/WellFormed.lean ====
section
/-! DEFINITION. Which parameters and which instructions are well formed: the opcode maps of rules R80 and R81 as lists of
populated opcodes, written apart from the decoder's tables. -/

namespace Sys2Proof

/-- The populated primary opcodes: rule R80 for GOBOY-DOC, rule R81 for SM83-GK. The extended table is empty in both
(rule R84). -/
def Table.populated : Table → List Byte
  | .gobyDoc => [0x31#8]
  | .sm83gk =>
    [0x00#8, 0x01#8, 0x11#8, 0x21#8, 0x31#8] ++
    [0x06#8, 0x0E#8, 0x16#8, 0x1E#8, 0x26#8, 0x2E#8, 0x3E#8, 0x36#8, 0x7E#8, 0x77#8] ++
    [0x80#8, 0x81#8, 0x82#8, 0x83#8, 0x84#8, 0x85#8, 0x86#8, 0x87#8, 0xC6#8] ++
    [0x88#8, 0x89#8, 0x8A#8, 0x8B#8, 0x8C#8, 0x8D#8, 0x8E#8, 0x8F#8, 0xCE#8] ++
    [0x90#8, 0x91#8, 0x92#8, 0x93#8, 0x94#8, 0x95#8, 0x96#8, 0x97#8, 0xD6#8] ++
    [0xC3#8, 0xC2#8, 0xCA#8, 0xD2#8, 0xDA#8, 0x18#8, 0x20#8, 0x28#8, 0x30#8, 0x38#8]

/-- The prefix byte must not have a primary descriptor (rule R83). -/
def Params.wf (p : Params) : Bool :=
  !p.table.populated.contains p.prefixOpcode

/-- Whether an instruction is one the tables of `p` can give: a profile instruction only under SM83-GK (rule R4), an empty
entry only for a byte that is neither the prefix nor populated (rules R82, R83). Operands are whole bytes, so every
operand value is well formed. -/
def Instr.wf (p : Params) : Instr → Bool
  | .ldSpD16 _ => true
  | .nop | .ldBcD16 _ | .ldDeD16 _ | .ldHlD16 _ | .ldBD8 _ | .ldCD8 _ | .ldDD8 _ | .ldED8 _ | .ldHD8 _
  | .ldLD8 _ | .ldAD8 _ | .ldIndHlD8 _ | .ldAIndHl | .ldIndHlA | .addAB | .addAC | .addAD | .addAE | .addAH
  | .addAL | .addAIndHl | .addAA | .adcAB | .adcAC | .adcAD | .adcAE | .adcAH | .adcAL | .adcAIndHl | .adcAA
  | .subB | .subC | .subD | .subE | .subH | .subL | .subIndHl | .subA | .addAD8 _ | .adcAD8 _ | .subD8 _
  | .jpA16 _ | .jpNzA16 _ | .jpZA16 _ | .jpNcA16 _ | .jpCA16 _ | .jrE8 _ | .jrNzE8 _ | .jrZE8 _ | .jrNcE8 _
  | .jrCE8 _ => p.table == .sm83gk
  | .prefixed _ => true
  | .emptyPrimary op => op != p.prefixOpcode && !p.table.populated.contains op

end Sys2Proof
end

