-- ==== Sys2Proof/Decode.lean ====
section
/-! DEFINITION. The two instruction tables, the decoder over them, the encoder written from the fields of rules R78 and
R79, and the byte-order helpers both use. -/

namespace Sys2Proof

/-! Byte order (rules R54, R74) -/

/-- `hi:lo`, that is `(hi << 8) | lo` (rules R9, R26, R74). -/
def joinBytes (hi lo : Byte) : Word :=
  (hi.setWidth 16 <<< 8) ||| lo.setWidth 16

/-- Bits 15-8 of a word: `(v >> 8) & 0xFF` (rule R26). -/
def hiByte (v : Word) : Byte := (v >>> 8).setWidth 8

/-- Bits 7-0 of a word: `v & 0xFF` (rule R26). -/
def loByte (v : Word) : Byte := v.setWidth 8

/-- The displacement `e8` as a 16-bit two's complement value, `sext_16` (rules R9, R76). -/
def sext16 (e8 : Byte) : Word := e8.signExtend 16

/-! The instruction tables (rules R80, R81, R100) -/

/-- GOBOY-DOC: the one documented row (rules R80, R120). -/
def docRows : List (Byte × Descriptor) :=
  [ (0x31#8, ⟨"LD_SP_d16", .imm16 .ldSpD16, 12, none⟩) ]

/-- SM83-GK loads and NOP (rules R81, R130-R135). -/
def loadRows : List (Byte × Descriptor) :=
  [ (0x00#8, ⟨"NOP", .implied .nop, 4, none⟩),
    (0x01#8, ⟨"LD_BC_d16", .imm16 .ldBcD16, 12, none⟩),
    (0x11#8, ⟨"LD_DE_d16", .imm16 .ldDeD16, 12, none⟩),
    (0x21#8, ⟨"LD_HL_d16", .imm16 .ldHlD16, 12, none⟩),
    (0x06#8, ⟨"LD_B_d8", .imm8 .ldBD8, 8, none⟩),
    (0x0E#8, ⟨"LD_C_d8", .imm8 .ldCD8, 8, none⟩),
    (0x16#8, ⟨"LD_D_d8", .imm8 .ldDD8, 8, none⟩),
    (0x1E#8, ⟨"LD_E_d8", .imm8 .ldED8, 8, none⟩),
    (0x26#8, ⟨"LD_H_d8", .imm8 .ldHD8, 8, none⟩),
    (0x2E#8, ⟨"LD_L_d8", .imm8 .ldLD8, 8, none⟩),
    (0x3E#8, ⟨"LD_A_d8", .imm8 .ldAD8, 8, none⟩),
    (0x36#8, ⟨"LD__HL__d8", .imm8 .ldIndHlD8, 12, none⟩),
    (0x7E#8, ⟨"LD_A__HL", .implied .ldAIndHl, 8, none⟩),
    (0x77#8, ⟨"LD__HL__A", .implied .ldIndHlA, 8, none⟩) ]

/-- SM83-GK ADD forms (rules R81, R140-R142). -/
def addRows : List (Byte × Descriptor) :=
  [ (0x80#8, ⟨"ADD_A_B", .implied .addAB, 4, none⟩),
    (0x81#8, ⟨"ADD_A_C", .implied .addAC, 4, none⟩),
    (0x82#8, ⟨"ADD_A_D", .implied .addAD, 4, none⟩),
    (0x83#8, ⟨"ADD_A_E", .implied .addAE, 4, none⟩),
    (0x84#8, ⟨"ADD_A_H", .implied .addAH, 4, none⟩),
    (0x85#8, ⟨"ADD_A_L", .implied .addAL, 4, none⟩),
    (0x86#8, ⟨"ADD_A__HL", .implied .addAIndHl, 8, none⟩),
    (0x87#8, ⟨"ADD_A_A", .implied .addAA, 4, none⟩),
    (0xC6#8, ⟨"ADD_A_d8", .imm8 .addAD8, 8, none⟩) ]

/-- SM83-GK ADC forms (rules R81, R143-R145). -/
def adcRows : List (Byte × Descriptor) :=
  [ (0x88#8, ⟨"ADC_A_B", .implied .adcAB, 4, none⟩),
    (0x89#8, ⟨"ADC_A_C", .implied .adcAC, 4, none⟩),
    (0x8A#8, ⟨"ADC_A_D", .implied .adcAD, 4, none⟩),
    (0x8B#8, ⟨"ADC_A_E", .implied .adcAE, 4, none⟩),
    (0x8C#8, ⟨"ADC_A_H", .implied .adcAH, 4, none⟩),
    (0x8D#8, ⟨"ADC_A_L", .implied .adcAL, 4, none⟩),
    (0x8E#8, ⟨"ADC_A__HL", .implied .adcAIndHl, 8, none⟩),
    (0x8F#8, ⟨"ADC_A_A", .implied .adcAA, 4, none⟩),
    (0xCE#8, ⟨"ADC_A_d8", .imm8 .adcAD8, 8, none⟩) ]

/-- SM83-GK SUB forms (rules R81, R146-R148). -/
def subRows : List (Byte × Descriptor) :=
  [ (0x90#8, ⟨"SUB_B", .implied .subB, 4, none⟩),
    (0x91#8, ⟨"SUB_C", .implied .subC, 4, none⟩),
    (0x92#8, ⟨"SUB_D", .implied .subD, 4, none⟩),
    (0x93#8, ⟨"SUB_E", .implied .subE, 4, none⟩),
    (0x94#8, ⟨"SUB_H", .implied .subH, 4, none⟩),
    (0x95#8, ⟨"SUB_L", .implied .subL, 4, none⟩),
    (0x96#8, ⟨"SUB__HL", .implied .subIndHl, 8, none⟩),
    (0x97#8, ⟨"SUB_A", .implied .subA, 4, none⟩),
    (0xD6#8, ⟨"SUB_d8", .imm8 .subD8, 8, none⟩) ]

/-- SM83-GK control transfer (rules R81, R150-R153). -/
def jumpRows : List (Byte × Descriptor) :=
  [ (0xC3#8, ⟨"JP_a16", .imm16 .jpA16, 16, none⟩),
    (0xC2#8, ⟨"JP_NZ_a16", .imm16 .jpNzA16, 16, (some 12)⟩),
    (0xCA#8, ⟨"JP_Z_a16", .imm16 .jpZA16, 16, (some 12)⟩),
    (0xD2#8, ⟨"JP_NC_a16", .imm16 .jpNcA16, 16, (some 12)⟩),
    (0xDA#8, ⟨"JP_C_a16", .imm16 .jpCA16, 16, (some 12)⟩),
    (0x18#8, ⟨"JR_e8", .imm8 .jrE8, 12, none⟩),
    (0x20#8, ⟨"JR_NZ_e8", .imm8 .jrNzE8, 12, (some 8)⟩),
    (0x28#8, ⟨"JR_Z_e8", .imm8 .jrZE8, 12, (some 8)⟩),
    (0x30#8, ⟨"JR_NC_e8", .imm8 .jrNcE8, 12, (some 8)⟩),
    (0x38#8, ⟨"JR_C_e8", .imm8 .jrCE8, 12, (some 8)⟩) ]

/-- The populated rows of the primary table under each value of `TABLE` (rules R4, R80, R81). -/
def primaryRows : Table → List (Byte × Descriptor)
  | .gobyDoc => docRows
  | .sm83gk => docRows ++ loadRows ++ addRows ++ adcRows ++ subRows ++ jumpRows

/-- `PRIMARY[op]` (rule R102): the descriptor, or none for an empty entry. -/
def primaryEntry (t : Table) (op : Byte) : Option Descriptor :=
  (primaryRows t).lookup op

/-- `EXTENDED[x]` (rule R102): every entry is empty in both configurations (rule R84). -/
def extendedEntry (_t : Table) (_x : Byte) : Option Descriptor := none

/-! The decoder -/

/-- Why the decoder reads no instruction from a list of bytes: an operand, an extended opcode or the opcode itself is
missing. Every byte is a table index, so nothing else is ever rejected. -/
inductive DecodeError where
  /-- no byte at all -/
  | noOpcode
  /-- the prefix byte is the last one (rule R105 needs a second) -/
  | noExtendedOpcode
  /-- fewer bytes than the descriptor's operand length follow (rule R70) -/
  | missingOperand
deriving DecidableEq, Repr

/-- A descriptor's instruction from the bytes after the opcode, with the bytes left over (rules R70, R73-R76). -/
def Handler.decode (hd : Handler) (bytes : List Byte) : Except DecodeError (Instr × List Byte) :=
  match hd, bytes with
  | .implied i, rest => .ok (i, rest)
  | .imm8 f, v :: rest => .ok (f v, rest)
  | .imm8 _, [] => .error .missingOperand
  | .imm16 f, lo :: hi :: rest => .ok (f (joinBytes hi lo), rest)
  | .imm16 _, _ => .error .missingOperand

/-- The instruction at the head of a list of bytes, and the bytes after it (rules R72, R102): the prefix is tested before
any primary lookup (rule R83), and the second byte of a pair is never a second prefix (rule R105). -/
def decode (p : Params) : List Byte → Except DecodeError (Instr × List Byte)
  | [] => .error .noOpcode
  | op :: rest =>
    if op = p.prefixOpcode then
      match rest with
      | [] => .error .noExtendedOpcode
      | xx :: rest' =>
        match extendedEntry p.table xx with
        | none => .ok (.prefixed xx, rest')
        | some d => d.handler.decode rest'
    else
      match primaryEntry p.table op with
      | none => .ok (.emptyPrimary op, rest)
      | some d => d.handler.decode rest

/-- An instruction's length in bytes (rules R70, R71, R72). An empty entry has none; the one byte read is counted. -/
def Instr.length : Instr → Nat
  | .ldSpD16 _ | .ldBcD16 _ | .ldDeD16 _ | .ldHlD16 _ | .jpA16 _ | .jpNzA16 _ | .jpZA16 _ | .jpNcA16 _
  | .jpCA16 _ => 3
  | .ldBD8 _ | .ldCD8 _ | .ldDD8 _ | .ldED8 _ | .ldHD8 _ | .ldLD8 _ | .ldAD8 _ | .ldIndHlD8 _ | .addAD8 _
  | .adcAD8 _ | .subD8 _ | .jrE8 _ | .jrNzE8 _ | .jrZE8 _ | .jrNcE8 _ | .jrCE8 _ => 2
  | .nop | .ldAIndHl | .ldIndHlA | .addAB | .addAC | .addAD | .addAE | .addAH | .addAL | .addAIndHl | .addAA
  | .adcAB | .adcAC | .adcAD | .adcAE | .adcAH | .adcAL | .adcAIndHl | .adcAA | .subB | .subC | .subD | .subE
  | .subH | .subL | .subIndHl | .subA => 1
  | .prefixed _ => 2
  | .emptyPrimary _ => 1

/-! The encoder -/

/-- The field `r` (rule R78). -/
def Reg.code : Reg → Byte
  | .b => 0 | .c => 1 | .d => 2 | .e => 3 | .h => 4 | .l => 5 | .a => 7

/-- The field `cc` (rule R79). -/
def Cond.code : Cond → Byte
  | .nz => 0 | .z => 1 | .nc => 2 | .c => 3

/-- `LD rr,d16` is `0b00rr0001`, the pair field at bits 5:4 (rules R78, R130). -/
def opLdPair (rr : Byte) : Byte := 0b00000001#8 + (rr <<< 4)

/-- `LD r,d8` is `0b00rrr110`, the register field at bits 5:3 (rules R78, R131). -/
def opLdImm (r : Reg) : Byte := 0b00000110#8 + (r.code <<< 3)

/-- The register ALU forms are `0b100oorrr`: `oo` is 0 for ADD, 1 for ADC, 2 for SUB, and the register field stands at bits
2:0, 6 being `(HL)` (rules R78, R140, R143, R146). -/
def opAlu (oo rField : Byte) : Byte := 0b10000000#8 + (oo <<< 3) + rField

/-- `JP cc,a16` is `0b110cc010` (rules R79, R151). -/
def opJpCc (cc : Cond) : Byte := 0b11000010#8 + (cc.code <<< 3)

/-- `JR cc,e8` is `0b001cc000` (rules R79, R153). -/
def opJrCc (cc : Cond) : Byte := 0b00100000#8 + (cc.code <<< 3)

/-- The bytes of an instruction (rules R71, R74): opcode first, then its operand bytes, the low byte of a word first. -/
def encode (p : Params) : Instr → List Byte
  | .ldSpD16 w => [opLdPair 3, loByte w, hiByte w]
  | .nop => [0x00#8]
  | .ldBcD16 w => [opLdPair 0, loByte w, hiByte w]
  | .ldDeD16 w => [opLdPair 1, loByte w, hiByte w]
  | .ldHlD16 w => [opLdPair 2, loByte w, hiByte w]
  | .ldBD8 v => [opLdImm .b, v]
  | .ldCD8 v => [opLdImm .c, v]
  | .ldDD8 v => [opLdImm .d, v]
  | .ldED8 v => [opLdImm .e, v]
  | .ldHD8 v => [opLdImm .h, v]
  | .ldLD8 v => [opLdImm .l, v]
  | .ldAD8 v => [opLdImm .a, v]
  | .ldIndHlD8 v => [0x36#8, v]
  | .ldAIndHl => [0x7E#8]
  | .ldIndHlA => [0x77#8]
  | .addAB => [opAlu 0 (Reg.code .b)]
  | .addAC => [opAlu 0 (Reg.code .c)]
  | .addAD => [opAlu 0 (Reg.code .d)]
  | .addAE => [opAlu 0 (Reg.code .e)]
  | .addAH => [opAlu 0 (Reg.code .h)]
  | .addAL => [opAlu 0 (Reg.code .l)]
  | .addAIndHl => [opAlu 0 6]
  | .addAA => [opAlu 0 (Reg.code .a)]
  | .adcAB => [opAlu 1 (Reg.code .b)]
  | .adcAC => [opAlu 1 (Reg.code .c)]
  | .adcAD => [opAlu 1 (Reg.code .d)]
  | .adcAE => [opAlu 1 (Reg.code .e)]
  | .adcAH => [opAlu 1 (Reg.code .h)]
  | .adcAL => [opAlu 1 (Reg.code .l)]
  | .adcAIndHl => [opAlu 1 6]
  | .adcAA => [opAlu 1 (Reg.code .a)]
  | .subB => [opAlu 2 (Reg.code .b)]
  | .subC => [opAlu 2 (Reg.code .c)]
  | .subD => [opAlu 2 (Reg.code .d)]
  | .subE => [opAlu 2 (Reg.code .e)]
  | .subH => [opAlu 2 (Reg.code .h)]
  | .subL => [opAlu 2 (Reg.code .l)]
  | .subIndHl => [opAlu 2 6]
  | .subA => [opAlu 2 (Reg.code .a)]
  | .addAD8 v => [0xC6#8, v]
  | .adcAD8 v => [0xCE#8, v]
  | .subD8 v => [0xD6#8, v]
  | .jpA16 w => [0xC3#8, loByte w, hiByte w]
  | .jpNzA16 w => [opJpCc .nz, loByte w, hiByte w]
  | .jpZA16 w => [opJpCc .z, loByte w, hiByte w]
  | .jpNcA16 w => [opJpCc .nc, loByte w, hiByte w]
  | .jpCA16 w => [opJpCc .c, loByte w, hiByte w]
  | .jrE8 v => [0x18#8, v]
  | .jrNzE8 v => [opJrCc .nz, v]
  | .jrZE8 v => [opJrCc .z, v]
  | .jrNcE8 v => [opJrCc .nc, v]
  | .jrCE8 v => [opJrCc .c, v]
  | .prefixed xx => [p.prefixOpcode, xx]
  | .emptyPrimary op => [op]

/-! The opcode table's words -/

/-- The longest instruction of either configuration, in bytes (format `P2`, rule R71). -/
def maxInstrBytes : Nat := 3

/-- The `n` lowest bytes of `w`, the lowest first. -/
def bytesOfNat : Nat → Nat → List Byte
  | 0, _ => []
  | n + 1, w => BitVec.ofNat 8 w :: bytesOfNat n (w / 256)

/-- The bytes in memory order of an instruction whose table word is `w`: bit 0 of `w` is bit 0 of the opcode byte, and the
bits above `nbits` are zero. -/
def tableWordBytes (nbits w : Nat) : List Byte :=
  bytesOfNat maxInstrBytes (w % 2 ^ nbits)

/-- The instruction the decoder reads from a word of spec/opcode_table.json, under the parameters of reset. -/
def decodeTableWord (nbits w : Nat) : Option Instr :=
  match decode Config.params (tableWordBytes nbits w) with
  | .ok (i, _) => some i
  | .error _ => none

end Sys2Proof
end

