-- ==== Sys2Proof/Machine/Ops.lean ====
section
/-! DEFINITION. The named operations over memory, addresses and outcomes that every meaning is written with. -/

namespace Sys2Proof.Machine

/-! Errors. A step has no trap entry and no return from one (rules R165, R166): it returns the error to its caller. -/

/-- Raising an error: the step ends with it and writes nothing (rules R12, R109, R165). The one place where a meaning
stops. -/
def raise (f : Fault) : Host.Outcome State Fault Refusal := .fault f

/-- Go on with the value of an operation that may raise (rule R12). -/
def orRaise {α : Type} (x : Except Fault α) (k : α → Host.Outcome State Fault Refusal) :
    Host.Outcome State Fault Refusal :=
  match x with
  | .ok v => k v
  | .error f => raise f

/-! The byte array behind the bus (rules R46, R57) -/

/-- The byte held at an address; an address not listed holds 0x00. -/
def Memory.read (m : Memory) (addr : Nat) : Byte := (m.lookup addr).getD 0

/-- Put a cell into a list by rising address, before the first greater one. -/
def Memory.insertCell (addr : Nat) (v : Byte) : Memory → Memory
  | [] => [(addr, v)]
  | cell :: rest =>
    if addr < cell.1 then (addr, v) :: cell :: rest else cell :: Memory.insertCell addr v rest

/-- Store a byte: `mem[addr] <- v` (rule R50). The byte 0x00 is stored by listing nothing, which keeps the canonical
form. -/
def Memory.write (m : Memory) (addr : Nat) (v : Byte) : Memory :=
  let others := m.filter (fun cell => cell.1 != addr)
  if v = 0 then others else Memory.insertCell addr v others

/-- Store bytes at consecutive addresses (rule R55). -/
def Memory.writeBytes (m : Memory) (addr : Nat) : List Byte → Memory
  | [] => m
  | v :: rest => Memory.writeBytes (m.write addr v) (addr + 1) rest

/-! The Memory Bus (rules R49-R51): one byte wide, with a bounds check on every access -/

/-- `MemRead(addr, 1)`, the source's `read_byte` (rules R11, R49, R51). -/
def busRead (m : Memory) (addr : Nat) : Except Fault Byte :=
  if addr ≤ 0xFFFF then .ok (m.read addr) else .error (.outOfRangeAddress addr)

/-- `MemWrite(addr, 1, v)`, the source's `write_byte` (rules R11, R50, R51). -/
def busWrite (m : Memory) (addr : Nat) (v : Byte) : Except Fault Memory :=
  if addr ≤ 0xFFFF then .ok (m.write addr v) else .error (.outOfRangeAddress addr)

/-- The byte at a 16-bit address, which is always in range (rule R48). -/
def State.byteAt (s : State) (addr : Word) : Byte := s.mem.read addr.toNat

/-! Address arithmetic -/

/-- `Addr(base, k)` (rule R56). `Addr(base, 0)` is `base`. -/
def addrAfter (mode : AddrWrap) (base : Word) (k : Nat) : Except Fault Word :=
  let t := base.toNat + k
  if t ≤ 0xFFFF then .ok (BitVec.ofNat 16 t)
  else
    match mode with
    | .wrap => .ok (BitVec.ofNat 16 (t % 0x10000))
    | .fault => .error (.outOfRangeAddress t)

/-! How a handler ends: exactly one write to `pc` (rule R107) and a cycle report (rule R108) -/

/-- `pc <- target; return Ok(cycles)`. -/
def jumpTo (target : Word) (cycles : Nat) (s : State) : Host.Outcome State Fault Refusal :=
  .next { s with pc := target, report := cycles }

/-- `pc <- Addr(pc0, n); return Ok(cycles)`, for a handler whose other writes are already in `s`. If the address raises,
those writes are lost with `s` (rules R56, R109). -/
def finish (n cycles : Nat) (s : State) : Host.Outcome State Fault Refusal :=
  orRaise (addrAfter s.cfg.addrWrap s.pc n) fun next => jumpTo next cycles s

end Sys2Proof.Machine
end

