-- ==== Sys2Proof/Machine/Operands.lean ====
section
/-! DEFINITION. Every operand form: the registers, the derived register F and the paired views, the byte at HL, the
condition. Immediates are assembled by the decoder (Decode.lean) from bytes that Machine/Fetch.lean reads. -/

namespace Sys2Proof.Machine

/-! The 8-bit registers (rule R21) -/

/-- `x[r]` (rule R10). -/
def State.reg (s : State) : Reg → Byte
  | .b => s.b | .c => s.c | .d => s.d | .e => s.e | .h => s.h | .l => s.l | .a => s.a

/-- `x[r] <- v` (rule R10). -/
def State.setReg (s : State) (r : Reg) (v : Byte) : State :=
  match r with
  | .b => { s with b := v }
  | .c => { s with c := v }
  | .d => { s with d := v }
  | .e => { s with e := v }
  | .h => { s with h := v }
  | .l => { s with l := v }
  | .a => { s with a := v }

/-! F and the paired views: computed when read, never stored (rules R22, R30) -/

/-- `F`, the packed Flags byte (rules R10, R22). -/
def State.f (s : State) : Byte := s.flags.pack

/-- `BC` (rule R26). -/
def State.bc (s : State) : Word := joinBytes s.b s.c

/-- `DE` (rule R27). -/
def State.de (s : State) : Word := joinBytes s.d s.e

/-- `HL` (rule R28). -/
def State.hl (s : State) : Word := joinBytes s.h s.l

/-- `AF` (rule R29). -/
def State.af (s : State) : Word := joinBytes s.a s.f

/-- `set_BC(v)` (rule R26). -/
def State.setBc (s : State) (v : Word) : State := { s with b := hiByte v, c := loByte v }

/-- `set_DE(v)` (rule R27). -/
def State.setDe (s : State) (v : Word) : State := { s with d := hiByte v, e := loByte v }

/-- `set_HL(v)` (rule R28). -/
def State.setHl (s : State) (v : Word) : State := { s with h := hiByte v, l := loByte v }

/-- `set_AF(v)` (rule R29): the one way to write F; bits 3-0 of `v` are lost. No instruction calls it. -/
def State.setAf (s : State) (v : Word) : State :=
  { s with a := hiByte v, flags := Flags.unpack (loByte v) }

/-! The operand `(HL)` (rules R78, R132-R134) -/

/-- `MemRead(HL, 1)`. -/
def readIndHl (s : State) : Except Fault Byte := busRead s.mem s.hl.toNat

/-- `MemWrite(HL, 1, v)`. -/
def writeIndHl (v : Byte) (s : State) : Except Fault State :=
  (busWrite s.mem s.hl.toNat v).map fun m => { s with mem := m }

/-! Conditions -/

/-- `cond(cc)` (rule R154). -/
def condHolds (cc : Cond) (f : Flags) : Bool :=
  match cc with
  | .nz => !f.z
  | .z => f.z
  | .nc => !f.c
  | .c => f.c

end Sys2Proof.Machine
end

