-- ==== Sys2Proof/Machine/Arith.lean ====
section
/-! DEFINITION. The ALU instructions of the SM83-GK profile (46_profile_alu.md): each invokes one operation of 40_alu.md with A
as its first operand, stores the result to A and all four flags, and advances. -/

namespace Sys2Proof.Machine

/-- `(res, f') <- ALU_op(x[A], n, flags); x[A] <- res; flags <- f'` (rule R90). -/
def withAlu (op : Byte → Byte → Flags → Byte × Flags) (n : Byte) (s : State) : State :=
  let out := op (s.reg .a) n s.flags
  { s with a := out.1, flags := out.2 }

/-- A register form (rules R140, R143, R146): format P0, 4 cycles. -/
def aluReg (op : Byte → Byte → Flags → Byte × Flags) (r : Reg) (s : State) : Host.Outcome State Fault Refusal :=
  finish 1 4 (withAlu op (s.reg r) s)

/-- An `(HL)` form (rules R141, R144, R147): format P0, 8 cycles. -/
def aluIndHl (op : Byte → Byte → Flags → Byte × Flags) (s : State) : Host.Outcome State Fault Refusal :=
  orRaise (readIndHl s) fun n => finish 1 8 (withAlu op n s)

/-- An immediate form (rules R142, R145, R148): format P1, 8 cycles. -/
def aluImm (op : Byte → Byte → Flags → Byte × Flags) (d8 : Byte) (s : State) : Host.Outcome State Fault Refusal :=
  finish 2 8 (withAlu op d8 s)

/-- `ADD A,B` (rule R140). -/
def execAddAB (s : State) : Host.Outcome State Fault Refusal :=
  aluReg aluAdd .b s

/-- `ADD A,C` (rule R140). -/
def execAddAC (s : State) : Host.Outcome State Fault Refusal :=
  aluReg aluAdd .c s

/-- `ADD A,D` (rule R140). -/
def execAddAD (s : State) : Host.Outcome State Fault Refusal :=
  aluReg aluAdd .d s

/-- `ADD A,E` (rule R140). -/
def execAddAE (s : State) : Host.Outcome State Fault Refusal :=
  aluReg aluAdd .e s

/-- `ADD A,H` (rule R140). -/
def execAddAH (s : State) : Host.Outcome State Fault Refusal :=
  aluReg aluAdd .h s

/-- `ADD A,L` (rule R140). -/
def execAddAL (s : State) : Host.Outcome State Fault Refusal :=
  aluReg aluAdd .l s

/-- `ADD A,(HL)` (rule R141). -/
def execAddAIndHl (s : State) : Host.Outcome State Fault Refusal :=
  aluIndHl aluAdd s

/-- `ADD A,A` (rule R140). -/
def execAddAA (s : State) : Host.Outcome State Fault Refusal :=
  aluReg aluAdd .a s

/-- `ADC A,B` (rule R143). -/
def execAdcAB (s : State) : Host.Outcome State Fault Refusal :=
  aluReg aluAdc .b s

/-- `ADC A,C` (rule R143). -/
def execAdcAC (s : State) : Host.Outcome State Fault Refusal :=
  aluReg aluAdc .c s

/-- `ADC A,D` (rule R143). -/
def execAdcAD (s : State) : Host.Outcome State Fault Refusal :=
  aluReg aluAdc .d s

/-- `ADC A,E` (rule R143). -/
def execAdcAE (s : State) : Host.Outcome State Fault Refusal :=
  aluReg aluAdc .e s

/-- `ADC A,H` (rule R143). -/
def execAdcAH (s : State) : Host.Outcome State Fault Refusal :=
  aluReg aluAdc .h s

/-- `ADC A,L` (rule R143). -/
def execAdcAL (s : State) : Host.Outcome State Fault Refusal :=
  aluReg aluAdc .l s

/-- `ADC A,(HL)` (rule R144). -/
def execAdcAIndHl (s : State) : Host.Outcome State Fault Refusal :=
  aluIndHl aluAdc s

/-- `ADC A,A` (rule R143). -/
def execAdcAA (s : State) : Host.Outcome State Fault Refusal :=
  aluReg aluAdc .a s

/-- `SUB B` (rule R146). -/
def execSubB (s : State) : Host.Outcome State Fault Refusal :=
  aluReg aluSub .b s

/-- `SUB C` (rule R146). -/
def execSubC (s : State) : Host.Outcome State Fault Refusal :=
  aluReg aluSub .c s

/-- `SUB D` (rule R146). -/
def execSubD (s : State) : Host.Outcome State Fault Refusal :=
  aluReg aluSub .d s

/-- `SUB E` (rule R146). -/
def execSubE (s : State) : Host.Outcome State Fault Refusal :=
  aluReg aluSub .e s

/-- `SUB H` (rule R146). -/
def execSubH (s : State) : Host.Outcome State Fault Refusal :=
  aluReg aluSub .h s

/-- `SUB L` (rule R146). -/
def execSubL (s : State) : Host.Outcome State Fault Refusal :=
  aluReg aluSub .l s

/-- `SUB (HL)` (rule R147). -/
def execSubIndHl (s : State) : Host.Outcome State Fault Refusal :=
  aluIndHl aluSub s

/-- `SUB A` (rule R146). -/
def execSubA (s : State) : Host.Outcome State Fault Refusal :=
  aluReg aluSub .a s

/-- `ADD A,d8` (rule R142). -/
def execAddAD8 (d8 : Byte) (s : State) : Host.Outcome State Fault Refusal :=
  aluImm aluAdd d8 s

/-- `ADC A,d8` (rule R145). -/
def execAdcAD8 (d8 : Byte) (s : State) : Host.Outcome State Fault Refusal :=
  aluImm aluAdc d8 s

/-- `SUB d8` (rule R148). -/
def execSubD8 (d8 : Byte) (s : State) : Host.Outcome State Fault Refusal :=
  aluImm aluSub d8 s

end Sys2Proof.Machine
end

