-- ==== Sys2Proof/Machine/Control.lean ====
section
/-! DEFINITION. The control transfers of the SM83-GK profile (47_profile_control.md). None writes a flag; the conditional ones
read Z or C as they stand at the start of EXECUTE (rule R154). -/

namespace Sys2Proof.Machine

/-- A conditional absolute jump (rule R151): the fall-through address is computed only when the condition is false. -/
def jumpAbsIf (cc : Cond) (a16 : Word) (s : State) : Host.Outcome State Fault Refusal :=
  if condHolds cc s.flags then jumpTo a16 16 s else finish 3 12 s

/-- The target of a relative jump, `(next + e) mod 0x10000`, which wraps under both values of `ADDR_WRAP` (rule R152). -/
def relTarget (next : Word) (e8 : Byte) : Word := next + sext16 e8

/-- A conditional relative jump (rule R153): `next` is computed in either case. -/
def jumpRelIf (cc : Cond) (e8 : Byte) (s : State) : Host.Outcome State Fault Refusal :=
  orRaise (addrAfter s.cfg.addrWrap s.pc 2) fun next =>
    if condHolds cc s.flags then jumpTo (relTarget next e8) 12 s else jumpTo next 8 s

/-- `JP a16` (rule R150). -/
def execJpA16 (a16 : Word) (s : State) : Host.Outcome State Fault Refusal :=
  jumpTo a16 16 s

/-- `JP NZ,a16` (rule R151). -/
def execJpNzA16 (a16 : Word) (s : State) : Host.Outcome State Fault Refusal :=
  jumpAbsIf .nz a16 s

/-- `JP Z,a16` (rule R151). -/
def execJpZA16 (a16 : Word) (s : State) : Host.Outcome State Fault Refusal :=
  jumpAbsIf .z a16 s

/-- `JP NC,a16` (rule R151). -/
def execJpNcA16 (a16 : Word) (s : State) : Host.Outcome State Fault Refusal :=
  jumpAbsIf .nc a16 s

/-- `JP C,a16` (rule R151). -/
def execJpCA16 (a16 : Word) (s : State) : Host.Outcome State Fault Refusal :=
  jumpAbsIf .c a16 s

/-- `JR e8` (rule R152). -/
def execJrE8 (e8 : Byte) (s : State) : Host.Outcome State Fault Refusal :=
  orRaise (addrAfter s.cfg.addrWrap s.pc 2) fun next => jumpTo (relTarget next e8) 12 s

/-- `JR NZ,e8` (rule R153). -/
def execJrNzE8 (e8 : Byte) (s : State) : Host.Outcome State Fault Refusal :=
  jumpRelIf .nz e8 s

/-- `JR Z,e8` (rule R153). -/
def execJrZE8 (e8 : Byte) (s : State) : Host.Outcome State Fault Refusal :=
  jumpRelIf .z e8 s

/-- `JR NC,e8` (rule R153). -/
def execJrNcE8 (e8 : Byte) (s : State) : Host.Outcome State Fault Refusal :=
  jumpRelIf .nc e8 s

/-- `JR C,e8` (rule R153). -/
def execJrCE8 (e8 : Byte) (s : State) : Host.Outcome State Fault Refusal :=
  jumpRelIf .c e8 s

end Sys2Proof.Machine
end

