-- ==== Sys2Proof/Machine/Empty.lean ====
section
/-! DEFINITION. The two rows of the opcode table that stand for no descriptor: a pair behind the prefix byte and an empty
primary entry. The spec gives each an error and no other effect. -/

namespace Sys2Proof.Machine

/-- `PREFIX_OPCODE xx` (rules R84, R105): UnimplementedOpcode(extended, xx, pc0), where `pc0` is the address of the prefix
byte. -/
def execPrefixed (xx : Byte) (s : State) : Host.Outcome State Fault Refusal :=
  raise (.unimplementedOpcode .extended xx s.pc)

/-- An empty primary entry (rules R82, R104): UnimplementedOpcode(primary, op, pc0). -/
def execEmptyPrimary (op : Byte) (s : State) : Host.Outcome State Fault Refusal :=
  raise (.unimplementedOpcode .primary op s.pc)

end Sys2Proof.Machine
end

