-- ==== Sys2Proof/Machine/Loads.lean ====
section
/-! DEFINITION. LD SP,d16 (42_load_sp.md), and the loads and NOP of the SM83-GK profile (45_profile_loads.md). None writes a
flag (rule R23). -/

namespace Sys2Proof.Machine

/-- `LD SP,d16` (rule R120). -/
def execLdSpD16 (d16 : Word) (s : State) : Host.Outcome State Fault Refusal :=
  finish 3 12 { s with sp := d16 }

/-- `NOP` (rule R135). -/
def execNop (s : State) : Host.Outcome State Fault Refusal :=
  finish 1 4 s

/-- `LD BC,d16` (rule R130). -/
def execLdBcD16 (d16 : Word) (s : State) : Host.Outcome State Fault Refusal :=
  finish 3 12 (s.setBc d16)

/-- `LD DE,d16` (rule R130). -/
def execLdDeD16 (d16 : Word) (s : State) : Host.Outcome State Fault Refusal :=
  finish 3 12 (s.setDe d16)

/-- `LD HL,d16` (rule R130). -/
def execLdHlD16 (d16 : Word) (s : State) : Host.Outcome State Fault Refusal :=
  finish 3 12 (s.setHl d16)

/-- `LD B,d8` (rule R131). -/
def execLdBD8 (d8 : Byte) (s : State) : Host.Outcome State Fault Refusal :=
  finish 2 8 (s.setReg .b d8)

/-- `LD C,d8` (rule R131). -/
def execLdCD8 (d8 : Byte) (s : State) : Host.Outcome State Fault Refusal :=
  finish 2 8 (s.setReg .c d8)

/-- `LD D,d8` (rule R131). -/
def execLdDD8 (d8 : Byte) (s : State) : Host.Outcome State Fault Refusal :=
  finish 2 8 (s.setReg .d d8)

/-- `LD E,d8` (rule R131). -/
def execLdED8 (d8 : Byte) (s : State) : Host.Outcome State Fault Refusal :=
  finish 2 8 (s.setReg .e d8)

/-- `LD H,d8` (rule R131). -/
def execLdHD8 (d8 : Byte) (s : State) : Host.Outcome State Fault Refusal :=
  finish 2 8 (s.setReg .h d8)

/-- `LD L,d8` (rule R131). -/
def execLdLD8 (d8 : Byte) (s : State) : Host.Outcome State Fault Refusal :=
  finish 2 8 (s.setReg .l d8)

/-- `LD A,d8` (rule R131). -/
def execLdAD8 (d8 : Byte) (s : State) : Host.Outcome State Fault Refusal :=
  finish 2 8 (s.setReg .a d8)

/-- `LD (HL),d8` (rule R132). -/
def execLdIndHlD8 (d8 : Byte) (s : State) : Host.Outcome State Fault Refusal :=
  orRaise (writeIndHl d8 s) (finish 2 12)

/-- `LD A,(HL)` (rule R133). -/
def execLdAIndHl (s : State) : Host.Outcome State Fault Refusal :=
  orRaise (readIndHl s) fun v => finish 1 8 (s.setReg .a v)

/-- `LD (HL),A` (rule R134). -/
def execLdIndHlA (s : State) : Host.Outcome State Fault Refusal :=
  orRaise (writeIndHl (s.reg .a) s) (finish 1 8)

end Sys2Proof.Machine
end

