-- ==== Sys2Proof/Machine/Dispatch.lean ====
section
/-! DEFINITION. The dispatch: one arm per constructor of `Instr`, each one call of its meaning (rules R101, R102). -/

namespace Sys2Proof.Machine

/-- EXECUTE (rule R102): the handler of a decoded instruction. The operand bytes have been read; `s.pc` is `pc0`. -/
def exec (i : Instr) (s : State) : Host.Outcome State Fault Refusal :=
  match i with
  | .ldSpD16 d16 => Sys2Proof.Machine.execLdSpD16 d16 s
  | .nop => Sys2Proof.Machine.execNop s
  | .ldBcD16 d16 => Sys2Proof.Machine.execLdBcD16 d16 s
  | .ldDeD16 d16 => Sys2Proof.Machine.execLdDeD16 d16 s
  | .ldHlD16 d16 => Sys2Proof.Machine.execLdHlD16 d16 s
  | .ldBD8 d8 => Sys2Proof.Machine.execLdBD8 d8 s
  | .ldCD8 d8 => Sys2Proof.Machine.execLdCD8 d8 s
  | .ldDD8 d8 => Sys2Proof.Machine.execLdDD8 d8 s
  | .ldED8 d8 => Sys2Proof.Machine.execLdED8 d8 s
  | .ldHD8 d8 => Sys2Proof.Machine.execLdHD8 d8 s
  | .ldLD8 d8 => Sys2Proof.Machine.execLdLD8 d8 s
  | .ldAD8 d8 => Sys2Proof.Machine.execLdAD8 d8 s
  | .ldIndHlD8 d8 => Sys2Proof.Machine.execLdIndHlD8 d8 s
  | .ldAIndHl => Sys2Proof.Machine.execLdAIndHl s
  | .ldIndHlA => Sys2Proof.Machine.execLdIndHlA s
  | .addAB => Sys2Proof.Machine.execAddAB s
  | .addAC => Sys2Proof.Machine.execAddAC s
  | .addAD => Sys2Proof.Machine.execAddAD s
  | .addAE => Sys2Proof.Machine.execAddAE s
  | .addAH => Sys2Proof.Machine.execAddAH s
  | .addAL => Sys2Proof.Machine.execAddAL s
  | .addAIndHl => Sys2Proof.Machine.execAddAIndHl s
  | .addAA => Sys2Proof.Machine.execAddAA s
  | .adcAB => Sys2Proof.Machine.execAdcAB s
  | .adcAC => Sys2Proof.Machine.execAdcAC s
  | .adcAD => Sys2Proof.Machine.execAdcAD s
  | .adcAE => Sys2Proof.Machine.execAdcAE s
  | .adcAH => Sys2Proof.Machine.execAdcAH s
  | .adcAL => Sys2Proof.Machine.execAdcAL s
  | .adcAIndHl => Sys2Proof.Machine.execAdcAIndHl s
  | .adcAA => Sys2Proof.Machine.execAdcAA s
  | .subB => Sys2Proof.Machine.execSubB s
  | .subC => Sys2Proof.Machine.execSubC s
  | .subD => Sys2Proof.Machine.execSubD s
  | .subE => Sys2Proof.Machine.execSubE s
  | .subH => Sys2Proof.Machine.execSubH s
  | .subL => Sys2Proof.Machine.execSubL s
  | .subIndHl => Sys2Proof.Machine.execSubIndHl s
  | .subA => Sys2Proof.Machine.execSubA s
  | .addAD8 d8 => Sys2Proof.Machine.execAddAD8 d8 s
  | .adcAD8 d8 => Sys2Proof.Machine.execAdcAD8 d8 s
  | .subD8 d8 => Sys2Proof.Machine.execSubD8 d8 s
  | .jpA16 a16 => Sys2Proof.Machine.execJpA16 a16 s
  | .jpNzA16 a16 => Sys2Proof.Machine.execJpNzA16 a16 s
  | .jpZA16 a16 => Sys2Proof.Machine.execJpZA16 a16 s
  | .jpNcA16 a16 => Sys2Proof.Machine.execJpNcA16 a16 s
  | .jpCA16 a16 => Sys2Proof.Machine.execJpCA16 a16 s
  | .jrE8 e8 => Sys2Proof.Machine.execJrE8 e8 s
  | .jrNzE8 e8 => Sys2Proof.Machine.execJrNzE8 e8 s
  | .jrZE8 e8 => Sys2Proof.Machine.execJrZE8 e8 s
  | .jrNcE8 e8 => Sys2Proof.Machine.execJrNcE8 e8 s
  | .jrCE8 e8 => Sys2Proof.Machine.execJrCE8 e8 s
  | .prefixed xx => Sys2Proof.Machine.execPrefixed xx s
  | .emptyPrimary op => Sys2Proof.Machine.execEmptyPrimary op s

end Sys2Proof.Machine
end

