-- ==== Sys2Proof/Machine/Fetch.lean ====
section
/-! DEFINITION. FETCH and DECODE of rule R102: reading an instruction's bytes through the bus, and placing bytes where the
next fetch reads them. -/

namespace Sys2Proof.Machine

/-- The byte at `Addr(base, k)`, read through the bus (rules R56, R103). -/
def readAfter (s : State) (base : Word) (k : Nat) : Except Fault Byte :=
  match addrAfter s.cfg.addrWrap base k with
  | .error f => .error f
  | .ok addr => busRead s.mem addr.toNat

/-- A descriptor's instruction with its operands read at `Addr(opbase, 1)` and `Addr(opbase, 2)`, in increasing offset
(rules R73, R74, R102, R164). -/
def fetchOperands (s : State) (opbase : Word) (hd : Handler) : Except Fault Instr :=
  match hd with
  | .implied i => .ok i
  | .imm8 f =>
    match readAfter s opbase 1 with
    | .error e => .error e
    | .ok v => .ok (f v)
  | .imm16 f =>
    match readAfter s opbase 1 with
    | .error e => .error e
    | .ok lo =>
      match readAfter s opbase 2 with
      | .error e => .error e
      | .ok hi => .ok (f (joinBytes hi lo))

/-- The instruction at `pc` (rule R102). No operand byte of an empty entry is read (rule R104). -/
def fetch (s : State) : Except Fault Instr :=
  match busRead s.mem s.pc.toNat with
  | .error e => .error e
  | .ok op =>
    if op = s.cfg.prefixOpcode then
      match addrAfter s.cfg.addrWrap s.pc 1 with
      | .error e => .error e
      | .ok a1 =>
        match busRead s.mem a1.toNat with
        | .error e => .error e
        | .ok xx =>
          match extendedEntry s.cfg.table xx with
          | none => .ok (.prefixed xx)
          | some d => fetchOperands s a1 d.handler
    else
      match primaryEntry s.cfg.table op with
      | none => .ok (.emptyPrimary op)
      | some d => fetchOperands s s.pc d.handler

/-- Store bytes where the fetch at `base` reads them: the `k`th at `Addr(base, k)`. A byte whose address raises is not
stored. -/
def placeBytes (base : Word) : Nat → List Byte → State → State
  | _, [], s => s
  | k, v :: rest, s =>
    match addrAfter s.cfg.addrWrap base k with
    | .error _ => s
    | .ok addr => placeBytes base (k + 1) rest { s with mem := s.mem.write addr.toNat v }

/-- A word of the opcode table stored at `pc`, the place the next step fetches from (log entry 14). -/
def placeTableWord (s : State) (nbits w : Nat) : State :=
  placeBytes s.pc 0 (tableWordBytes nbits w) s

end Sys2Proof.Machine
end

