-- ==== Sys2Proof/Machine/Step.lean ====
section
/-! DEFINITION. One step (rule R102), and a table word placed where the next step fetches. -/

namespace Sys2Proof.Machine

/-- FETCH, DECODE, EXECUTE (rule R102). The cycle report of a completed step is `report` of the next state. -/
def step (s : State) : Host.Outcome State Fault Refusal :=
  orRaise (fetch s) fun i => exec i s

/-- The state with a table word's bytes at `pc`, so that the next step fetches it. -/
def State.withFetchWord (s : State) (nbits w : Nat) : State := placeTableWord s nbits w

end Sys2Proof.Machine
end

