-- ==== Sys2Proof/Machine/Interface.lean ====
section
/-! DEFINITION. The host-facing interfaces of rule R5: the step call, the snapshot, the image load, initial-state injection,
the boot order, and the run to `END_PC`. None of them is an instruction. -/

namespace Sys2Proof.Machine

/-! The step call (rules R102, R108, R112, R160) -/

/-- `Result` of the step call (rule R112), and the model's own refusal, which no step answers. -/
inductive StepResult where
  | ok
  | unimplementedOpcode (table : TableId) (opcode : Byte) (pc : Word)
  | outOfRangeAddress (addr : Nat)
  | refused (why : Refusal)
deriving DecidableEq, Repr

/-- The kinds of rule R160, ImageReadError among them, which only the image-load interface returns (rule R163). -/
inductive ErrorKind where
  | none | unimplementedOpcode | outOfRangeAddress | imageReadError
deriving DecidableEq, Repr

/-- The numbers rule R160 gives the kinds (decision D24). -/
def ErrorKind.code : ErrorKind → Nat
  | .none => 0
  | .unimplementedOpcode => 1
  | .outOfRangeAddress => 2
  | .imageReadError => 3

/-- The kind of a step's error (rule R160). -/
def Fault.kind : Fault → ErrorKind
  | .unimplementedOpcode _ _ _ => .unimplementedOpcode
  | .outOfRangeAddress _ => .outOfRangeAddress

/-- An error as the step call reports it (rule R112). -/
def Fault.result : Fault → StepResult
  | .unimplementedOpcode t op pc => .unimplementedOpcode t op pc
  | .outOfRangeAddress addr => .outOfRangeAddress addr

/-- What the step call leaves: the cycles it reports, its result, and the core's state after it. -/
structure StepReport where
  cycles : Nat
  result : StepResult
  state  : State
deriving DecidableEq, Repr

/-- `step() -> (cycles_consumed, Result)` (rule R112). A step that raises an error leaves the state as it was (rules R109,
R161, R162) and reports `ERR_CYCLES`, a draw with no law (rule R108): the argument `errCycles`, any natural number (log
entry 7). -/
def stepCall (errCycles : Nat) (s : State) : StepReport :=
  match step s with
  | .next t => { cycles := t.report, result := .ok, state := t }
  | .fault f => { cycles := errCycles, result := f.result, state := s }
  | .refused r => { cycles := errCycles, result := .refused r, state := s }

/-! The snapshot (rule R40) -/

/-- The read-only view: eight 8-bit registers, the stack pointer, the program counter and the four flags. -/
structure Snapshot where
  a : Byte
  f : Byte
  b : Byte
  c : Byte
  d : Byte
  e : Byte
  h : Byte
  l : Byte
  sp : Word
  pc : Word
  zero : Bool
  subtract : Bool
  halfCarry : Bool
  carry : Bool
deriving DecidableEq, Repr

/-- Taking a snapshot (rule R40): F is `pack(flags)`. -/
def State.snapshot (s : State) : Snapshot :=
  { a := s.a, f := s.f, b := s.b, c := s.c, d := s.d, e := s.e, h := s.h, l := s.l
    sp := s.sp, pc := s.pc
    zero := s.flags.z, subtract := s.flags.n, halfCarry := s.flags.h, carry := s.flags.c }

/-! Creation from a supplied state (rule R39) -/

/-- A supplied initial state: the seven registers, the four flags, `sp` and `pc` (rule R39, decision D21). -/
structure InitialState where
  a : Byte
  b : Byte
  c : Byte
  d : Byte
  e : Byte
  h : Byte
  l : Byte
  flags : Flags
  sp : Word
  pc : Word
deriving DecidableEq, Repr

/-- Initial-state injection: creation with the supplied values in place of the zeroed ones (rule R39). Memory is not part of
it. -/
def State.inject (p : Params) (mem0 : Memory) (init : InitialState) : State :=
  { a := init.a, b := init.b, c := init.c, d := init.d, e := init.e, h := init.h, l := init.l
    flags := init.flags, sp := init.sp, pc := init.pc, mem := mem0, cfg := p, report := 0 }

/-! The image load (rules R55, R163) -/

/-- The read failure that ImageReadError records (rule R160): a missing file or an I/O failure (log entry 21). -/
inductive ReadFailure where
  | missingFile
  | ioFailure
deriving DecidableEq, Repr

/-- Why an image load fails: the image exceeds the address space (rule R55), or its bytes could not be read (rule R163).
Each records what rule R160 says. -/
inductive LoadError where
  | outOfRangeAddress (addr : Nat)
  | imageReadError (why : ReadFailure)
deriving DecidableEq, Repr

/-- The kind of a load's error (rule R160). -/
def LoadError.kind : LoadError → ErrorKind
  | .outOfRangeAddress _ => .outOfRangeAddress
  | .imageReadError _ => .imageReadError

/-- `load_image(bytes, origin)` on a memory (rule R55): the bytes at consecutive addresses, or an error and no byte
written. Which address the error records the spec does not say: a free value above 0xFFFF (log entry 8). -/
def loadImage (m : Memory) (bytes : List Byte) (origin : Word) : Except LoadError Memory :=
  if origin.toNat + bytes.length > 0x10000 then
    .error (.outOfRangeAddress (0x10000 + Config.loadFailExcess origin.toNat bytes.length))
  else .ok (m.writeBytes origin.toNat bytes)

/-- `load_image` on the core, between steps (rules R55, R67). -/
def State.loadImage (s : State) (bytes : List Byte) (origin : Word) : Except LoadError State :=
  (Machine.loadImage s.mem bytes origin).map fun m => { s with mem := m }

/-- A memory with given contents from address 0 on: `MEM0` as a sequence of bytes (rule R57). -/
def Memory.ofBytes (bytes : List Byte) : Memory := Memory.writeBytes [] 0 bytes

/-! Boot (rule R182) -/

/-- What reading an image gave: its bytes, or the failure (rule R163). -/
inductive ImageRead where
  | read (bytes : List Byte)
  | failed (why : ReadFailure)
deriving DecidableEq, Repr

/-- One image the host loads: what reading it gave, and its origin. -/
structure Image where
  source : ImageRead
  origin : Word
deriving DecidableEq, Repr

/-- Loading the images in order; the first failure ends the launch (rules R163, R182). DESIGN CHOICE, unsafe (log entry 19):
each image is read just before it is loaded, so an image that does not fit is reported before a later one that could not be
read. Rule R182 lists reading before loading and does not say which comes first across several images. -/
def loadImages (s : State) : List Image → Except LoadError State
  | [] => .ok s
  | img :: rest =>
    match img.source with
    | .failed why => .error (.imageReadError why)
    | .read bytes =>
      match s.loadImage bytes img.origin with
      | .error e => .error e
      | .ok s' => loadImages s' rest

/-- The launch state of rules R111 and R182: create the core, zeroed or from a supplied state, then load the images. A
launch that fails has no state, so no step is taken from it (rule R163). -/
def boot (p : Params) (mem0 : Memory) (init : Option InitialState) (images : List Image) : Except LoadError State :=
  match init with
  | none => loadImages (State.create p mem0) images
  | some i => loadImages (State.inject p mem0 i) images

/-! A run (rule R111) -/

/-- How far a run has come: ended at `END_PC` after some steps and cycles; faulted at an error, which is kept and never
final (rule R175); stopped by a refusal of the model; or not yet over. -/
inductive RunOutcome where
  | ended (s : State) (steps cycles : Nat)
  | faulted (f : Fault) (s : State) (steps cycles : Nat)
  | refused (why : Refusal) (s : State)
  | running (s : State) (steps cycles : Nat)
deriving DecidableEq, Repr

/-- A run to `END_PC` of at most `fuel` steps, counting steps and cycles on from `steps` and `cycles` (rule R111). The end is
tested before each fetch. DESIGN CHOICE, unsafe (log entry 20): the cycles of a faulted run are those of its completed steps;
the `ERR_CYCLES` report of the step that raised the error is not added. The spec leaves totals to the driver (rule R37). -/
def runFrom (endPc : Word) : Nat → State → Nat → Nat → RunOutcome
  | 0, s, steps, cycles => if s.pc = endPc then .ended s steps cycles else .running s steps cycles
  | fuel + 1, s, steps, cycles =>
    if s.pc = endPc then .ended s steps cycles
    else
      match step s with
      | .next t => runFrom endPc fuel t (steps + 1) (cycles + t.report)
      | .fault f => .faulted f s steps cycles
      | .refused r => .refused r s

/-- A run from a launch state (rule R111). A run is infinite when it is `running` for every `fuel`. -/
def runTo (endPc : Word) (fuel : Nat) (s : State) : RunOutcome := runFrom endPc fuel s 0 0

end Sys2Proof.Machine
end

