-- ==== Sys2Proof/Safety.lean ====
section
/-! DEFINITION. The terms the statements use: the invariant of the machine's state, where an instruction has room below the top
of memory, what a step fetches, and what a safe run is. -/

namespace Sys2Proof.Safety

open Sys2Proof.Machine

/-- The invariant of a state: memory is in its canonical form, and the prefix byte has no primary descriptor (rule R83). -/
abbrev Inv (s : State) : Prop := s.mem.wf = true ∧ s.cfg.wf = true

/-- `Addr(pc0, n)` raises nothing: addresses wrap, or `pc0 + n` is still a 16-bit value (rule R56). -/
abbrev HasRoom (n : Nat) (s : State) : Prop := s.cfg.addrWrap = .wrap ∨ s.pc.toNat + n ≤ 0xFFFF

/-- The bytes stand where a fetch at `pc` reads them: the `k`th at `Addr(pc0, k)`, which raises nothing (rules R56, R70). -/
abbrev BytesAtPc (s : State) (bytes : List Byte) : Prop :=
  ∀ k, ∀ hk : k < bytes.length, HasRoom k s ∧ s.byteAt (s.pc + BitVec.ofNat 16 k) = bytes[k]

/-- The step of `s` dispatches on the primary opcode `op` under SM83-GK. -/
abbrev FetchesProfile (op : Byte) (s : State) : Prop :=
  s.cfg.wf = true ∧ s.cfg.table = .sm83gk ∧ s.byteAt s.pc = op

/-- The errors a profile rule names: under `ADDR_WRAP = fault`, from `pc0 >= first` on, a step at that opcode raises
OutOfRangeAddress(0x10000), the first address past the top. -/
def RaisesFrom (op : Byte) (first : Nat) : Prop :=
  ∀ s : State, FetchesProfile op s → s.cfg.addrWrap = .fault → first ≤ s.pc.toNat →
    step s = .fault (.outOfRangeAddress 0x10000)

/-- The instruction a handler makes from the operand bytes after `pc`: one byte, or two with the low byte first (rules R73,
R74). -/
def operandsAt (s : State) : Handler → Instr
  | .implied i => i
  | .imm8 f => f (s.byteAt (s.pc + 1))
  | .imm16 f => f (BitVec.ofNat 16 (256 * (s.byteAt (s.pc + 2)).toNat + (s.byteAt (s.pc + 1)).toNat))

/-- What the primary table of SM83-GK holds for an opcode: the handler, the base cycles and the not-taken cycles (rules R81,
R100, R185); and that a step at that opcode is `exec` of the instruction the handler makes from the bytes after it. The
mnemonic is left out, as no rule reads it (rule R87). -/
def ProfileRow (op : Byte) (hd : Handler) (base : Nat) (notTaken : Option Nat) : Prop :=
  (∃ m, primaryEntry .sm83gk op = some { mnemonic := m, handler := hd, baseCycles := base, notTakenCycles := notTaken }) ∧
  ∀ s : State, FetchesProfile op s → HasRoom hd.operandLength s → step s = exec (operandsAt s hd) s

/-- Memory is the same as before but for the byte at the address `addr`, which is `v`; said through reads. -/
def StoresByte (addr : Word) (v : Byte) (before after : State) : Prop :=
  after.byteAt addr = v ∧ ∀ x : Word, x ≠ addr → after.byteAt x = before.byteAt x

/-- A run is safe when it reaches `END_PC` without an error (rules R111, R175). -/
def SafeRun (endPc : Word) (s : State) : Prop :=
  ∃ fuel t steps cycles, runTo endPc fuel s = .ended t steps cycles

end Sys2Proof.Safety
end

