-- ==== Sys2Proof/Certificates/Slice0/Obligations.lean ====
section
/-! DEFINITION. The statements for the provers. The profile rules (R130-R154) are numbered rules of spec/ that the spec itself
supplies from general knowledge (93_implementation_defined.md G3-G6). -/

open Sys2Proof Sys2Proof.Machine Sys2Proof.Safety

/-! Creation and the host interfaces -/

/-- Rule R38: after creation every register, flag and pointer is zero, the derived views too, and memory is `MEM0`; the state
after reset is such a state (its parameters and `MEM0` are the model's choice, log entries 2 to 5, and not said here). -/
def Obligations.CreationZeroesRegistersAndPointers : Prop :=
  (∀ (p : Params) (mem0 : Memory),
    let s := State.create p mem0
    (∀ r, s.reg r = 0) ∧ s.flags.z = false ∧ s.flags.n = false ∧ s.flags.h = false ∧ s.flags.c = false ∧
      s.f = 0 ∧ s.bc = 0 ∧ s.de = 0 ∧ s.hl = 0 ∧ s.af = 0 ∧ s.sp = 0 ∧ s.pc = 0 ∧ s.mem = mem0 ∧ s.cfg = p) ∧
  ∃ (p : Params) (mem0 : Memory), State.reset = State.create p mem0

/-- The model's own invariant holds at reset, and after any creation from well-formed parameters and memory. -/
def Obligations.InvariantHoldsAtCreation : Prop :=
  Inv State.reset ∧
  (∀ (p : Params) (mem0 : Memory), p.wf = true → mem0.wf = true → Inv (State.create p mem0)) ∧
  (∀ (p : Params) (mem0 : Memory) (init : InitialState), p.wf = true → mem0.wf = true → Inv (State.inject p mem0 init))

/-- Rule R40: the snapshot shows the eight registers, F as the packed flags, `sp`, `pc` and the four flags. F is given bit by
bit, as rule R24 places them. -/
def Obligations.SnapshotShowsEveryRegister : Prop :=
  ∀ s : State,
    let v := s.snapshot
    v.a = s.a ∧ v.b = s.b ∧ v.c = s.c ∧ v.d = s.d ∧ v.e = s.e ∧ v.h = s.h ∧ v.l = s.l ∧ v.sp = s.sp ∧ v.pc = s.pc ∧
      v.zero = s.flags.z ∧ v.subtract = s.flags.n ∧ v.halfCarry = s.flags.h ∧ v.carry = s.flags.c ∧
      v.f.getLsbD 7 = s.flags.z ∧ v.f.getLsbD 6 = s.flags.n ∧ v.f.getLsbD 5 = s.flags.h ∧ v.f.getLsbD 4 = s.flags.c ∧
      v.f &&& 0x0F = 0

/-- Rule R55 (decision D9): an image that fits is copied byte by byte and no other byte changes; one that does not fails with
an address past the top. Which address that is the spec does not say (log entry 8): any above 0xFFFF. -/
def Obligations.LoadImageCopiesOrFails : Prop :=
  ∀ (m : Memory) (bytes : List Byte) (origin : Word),
    (origin.toNat + bytes.length ≤ 0x10000 →
      ∃ m', loadImage m bytes origin = .ok m' ∧
        (∀ i, ∀ hi : i < bytes.length, m'.read (origin.toNat + i) = bytes[i]) ∧
        (∀ x, x < origin.toNat ∨ origin.toNat + bytes.length ≤ x → m'.read x = m.read x)) ∧
    (0x10000 < origin.toNat + bytes.length →
      ∃ addr, 0xFFFF < addr ∧ loadImage m bytes origin = .error (.outOfRangeAddress addr))

/-- Rule R57: `MEM0` is any array of 65536 bytes. Every such array is a memory of the model in canonical form. -/
def Obligations.AnyByteArrayIsAMemory : Prop :=
  ∀ bytes : List Byte, bytes.length = 0x10000 →
    (Memory.ofBytes bytes).wf = true ∧ ∀ i, ∀ hi : i < bytes.length, (Memory.ofBytes bytes).read i = bytes[i]

/-- Rules R55, R163 and R182: a launch succeeds exactly when every image was read and fits; one with an image that could not
be read fails, and its error is ImageReadError with the failure when every image before it loads; a launch that succeeds holds
the created or supplied registers and only its memory is loaded. -/
def Obligations.BootNeedsEveryImage : Prop :=
  ∀ (p : Params) (mem0 : Memory) (init : Option InitialState),
    (∀ images : List Image,
      (∃ s, boot p mem0 init images = .ok s) ↔
        ∀ img ∈ images, ∃ bytes, img.source = .read bytes ∧ img.origin.toNat + bytes.length ≤ 0x10000) ∧
    (∀ (before after : List Image) (why : ReadFailure) (origin : Word) (s : State),
      boot p mem0 init before = .ok s →
      boot p mem0 init (before ++ { source := .failed why, origin := origin } :: after) = .error (.imageReadError why)) ∧
    (∀ (images : List Image) (s : State), boot p mem0 init images = .ok s →
      s = { init.elim (State.create p mem0) (State.inject p mem0) with mem := s.mem })

/-! Flags and views -/

/-- Rules R24 and R25: the places of the four flags in F, bits 3-0 zero, and the two laws of packing. -/
def Obligations.PackAndUnpackFlags : Prop :=
  (∀ f : Flags, f.pack.getLsbD 7 = f.z ∧ f.pack.getLsbD 6 = f.n ∧ f.pack.getLsbD 5 = f.h ∧ f.pack.getLsbD 4 = f.c ∧
    f.pack &&& 0x0F = 0) ∧
  (∀ b : Byte, Flags.unpack b =
    { z := b.getLsbD 7, n := b.getLsbD 6, h := b.getLsbD 5, c := b.getLsbD 4 }) ∧
  (∀ v : Byte, (Flags.unpack v).pack = v &&& 0xF0) ∧
  (∀ f : Flags, Flags.unpack f.pack = f)

/-- Rules R26, R27 and R28 with R30: a view is its two halves, the first-named register high; a setter writes the two halves
and nothing else; `get` after `set` returns the value, and `set` of `get` changes nothing. -/
def Obligations.PairViewsReadAndWriteTheirHalves : Prop :=
  ∀ (s : State) (v : Word),
    (s.bc.toNat = 256 * s.b.toNat + s.c.toNat ∧ s.de.toNat = 256 * s.d.toNat + s.e.toNat ∧
      s.hl.toNat = 256 * s.h.toNat + s.l.toNat) ∧
    (∃ hi lo : Byte, v.toNat = 256 * hi.toNat + lo.toNat ∧ s.setBc v = { s with b := hi, c := lo } ∧
      s.setDe v = { s with d := hi, e := lo } ∧ s.setHl v = { s with h := hi, l := lo }) ∧
    (s.setBc v).bc = v ∧ (s.setDe v).de = v ∧ (s.setHl v).hl = v ∧
    s.setBc s.bc = s ∧ s.setDe s.de = s ∧ s.setHl s.hl = s

/-- Rule R29: the AF view, and the low nibble that `set_AF` loses. -/
def Obligations.AfViewLosesItsLowNibble : Prop :=
  ∀ (s : State) (v : Word),
    s.af.toNat = 256 * s.a.toNat + s.flags.pack.toNat ∧
    (s.setAf v).af = v &&& 0xFFF0 ∧
    s.setAf v = { s with
      a := BitVec.ofNat 8 (v.toNat / 256)
      flags := { z := v.getLsbD 7, n := v.getLsbD 6, h := v.getLsbD 5, c := v.getLsbD 4 } }

/-! The ALU -/

/-- Rule R91: ADD, with the carry as the ninth bit of the sum. -/
def Obligations.AddComputesSumAndFlags : Prop :=
  ∀ (a n : Byte) (f : Flags),
    let out := aluAdd a n f
    out.1.toNat = (a.toNat + n.toNat) % 256 ∧
      (out.2.z = true ↔ (a.toNat + n.toNat) % 256 = 0) ∧ out.2.n = false ∧
      (out.2.h = true ↔ 0xF < a.toNat % 16 + n.toNat % 16) ∧
      (out.2.c = true ↔ 255 < a.toNat + n.toNat)

/-- Rule R92: ADC; the incoming carry counts in the result, in H and in C, and no other incoming flag is read. -/
def Obligations.AdcComputesSumAndFlags : Prop :=
  ∀ (a n : Byte) (f : Flags),
    let cin := if f.c then 1 else 0
    let out := aluAdc a n f
    out.1.toNat = (a.toNat + n.toNat + cin) % 256 ∧
      (out.2.z = true ↔ (a.toNat + n.toNat + cin) % 256 = 0) ∧ out.2.n = false ∧
      (out.2.h = true ↔ 0xF < a.toNat % 16 + n.toNat % 16 + cin) ∧
      (out.2.c = true ↔ 255 < a.toNat + n.toNat + cin)

/-- Rule R93: SUB, with C and H as borrows. -/
def Obligations.SubComputesDifferenceAndFlags : Prop :=
  ∀ (a n : Byte) (f : Flags),
    let out := aluSub a n f
    (out.1.toNat : Int) = ((a.toNat : Int) - (n.toNat : Int)) % 256 ∧
      (out.2.z = true ↔ a = n) ∧ out.2.n = true ∧
      (out.2.h = true ↔ a.toNat % 16 < n.toNat % 16) ∧
      (out.2.c = true ↔ a.toNat < n.toNat)

/-- Rule R96, which the spec marks as derived: the pair of carry and result is the exact sum or difference; the carry seen
from the result. -/
def Obligations.FlagLawsOfTheAlu : Prop :=
  ∀ (a n : Byte) (f : Flags),
    let add := aluAdd a n f
    let adc := aluAdc a n f
    let sub := aluSub a n f
    256 * add.2.c.toNat + add.1.toNat = a.toNat + n.toNat ∧
      256 * adc.2.c.toNat + adc.1.toNat = a.toNat + n.toNat + f.c.toNat ∧
      (sub.1.toNat : Int) - 256 * (sub.2.c.toNat : Int) = (a.toNat : Int) - (n.toNat : Int) ∧
      (add.2.c = true ↔ add.1 < a) ∧
      (adc.2.c = true ↔ adc.1 < a ∨ (adc.1 = a ∧ f.c = true)) ∧
      (sub.2.c = true ↔ a < sub.1) ∧
      (n = 0 → sub.2.c = false ∧ sub.2.h = false) ∧
      (f.c = false → adc = add)

/-! Memory and addresses -/

/-- Rules R49, R50 and R51: an access in range reads or writes the one byte and nothing else; above 0xFFFF it raises
OutOfRangeAddress with the address. -/
def Obligations.BusAccessesOneByteInRange : Prop :=
  ∀ (m : Memory) (addr : Nat) (v : Byte),
    (addr ≤ 0xFFFF →
      busRead m addr = .ok (m.read addr) ∧
      ∃ m', busWrite m addr v = .ok m' ∧ m'.read addr = v ∧ ∀ x, x ≠ addr → m'.read x = m.read x) ∧
    (0xFFFF < addr →
      busRead m addr = .error (.outOfRangeAddress addr) ∧ busWrite m addr v = .error (.outOfRangeAddress addr))

/-- Rule R56: `Addr(base, k)` under each value of `ADDR_WRAP`. -/
def Obligations.AddrWrapsOrRaises : Prop :=
  ∀ (mode : AddrWrap) (base : Word) (k : Nat), k ∈ [1, 2, 3] →
    (base.toNat + k ≤ 0xFFFF → ∃ x, addrAfter mode base k = .ok x ∧ x.toNat = base.toNat + k) ∧
    (0xFFFF < base.toNat + k →
      (∃ x, addrAfter .wrap base k = .ok x ∧ x.toNat = base.toNat + k - 0x10000) ∧
      addrAfter .fault base k = .error (.outOfRangeAddress (base.toNat + k)))

/-- The canonical form (the model's own): a write in range keeps it, and two memories in it that read alike are equal. -/
def Obligations.MemoryKeepsCanonicalForm : Prop :=
  (∀ (m m' : Memory) (addr : Nat) (v : Byte), m.wf = true → busWrite m addr v = .ok m' → m'.wf = true) ∧
  (∀ m m' : Memory, m.wf = true → m'.wf = true → (∀ x : Word, m.read x.toNat = m'.read x.toNat) → m = m')

/-! Encoding -/

/-- Words written out from the spec's encodings decode to their instructions; a sanity statement. -/
def Obligations.SpecWordsDecode : Prop :=
  decode Config.params [0b00110001, 0x00, 0x20] = .ok (.ldSpD16 0x2000, []) ∧
  decode Config.params [0b00100001, 0x00, 0xC0] = .ok (.ldHlD16 0xC000, []) ∧
  decode Config.params [0b00111110, 0x0F] = .ok (.ldAD8 0x0F, []) ∧
  decode Config.params [0b10001110] = .ok (.adcAIndHl, []) ∧
  decode Config.params [0b11011010, 0x0A, 0x00] = .ok (.jpCA16 0x000A, []) ∧
  decode Config.params [0b00110000, 0xFC] = .ok (.jrNcE8 0xFC, []) ∧
  decode Config.params [0xCB, 0x37] = .ok (.prefixed 0x37, []) ∧
  decode Config.params [0xD3] = .ok (.emptyPrimary 0xD3, [])

/-- Every well-formed instruction, encoded and decoded under any well-formed parameters, is read back with every operand, and
the bytes after it are left. -/
def Obligations.DecodeReadsBackEveryEncoding : Prop :=
  ∀ (p : Params) (i : Instr) (rest : List Byte), p.wf = true → i.wf p = true →
    decode p (encode p i ++ rest) = .ok (i, rest)

/-- Whatever the decoder reads is well formed, and encoding it gives the bytes it was read from: each sequence of bytes has
one meaning. -/
def Obligations.EncodeGivesBackDecodedBytes : Prop :=
  ∀ (p : Params) (bytes rest : List Byte) (i : Instr), p.wf = true → decode p bytes = .ok (i, rest) →
    i.wf p = true ∧ encode p i ++ rest = bytes

/-- Rule R80: under GOBOY-DOC the primary table holds exactly 0x31 with operand length 2, 12 cycles and no condition, and the
extended table is empty. -/
def Obligations.DocumentedTableHoldsOneRow : Prop :=
  (∀ op : Byte, (primaryEntry .gobyDoc op).isSome = true ↔ op = 0x31) ∧
  (∀ op : Byte, ∀ d, primaryEntry .gobyDoc op = some d →
    d.handler = .imm16 .ldSpD16 ∧ d.handler.operandLength = 2 ∧ d.baseCycles = 12 ∧ d.notTakenCycles = none) ∧
  (∀ (t : Table) (xx : Byte), (extendedEntry t xx).isNone = true)

/-! The step -/

/-- Rules R70, R102 and R103: when the bytes at `pc` decode to an instruction, the step is `exec` of it on that very state;
the step adds nothing, as the handler itself advances `pc` (rule R106). -/
def Obligations.StepRunsTheDecodedInstruction : Prop :=
  ∀ (s : State) (bytes : List Byte) (i : Instr),
    decode s.cfg bytes = .ok (i, []) → BytesAtPc s bytes → step s = exec i s

/-- Rule R104: an empty primary entry raises UnimplementedOpcode with the byte and `pc`, and the step call leaves the state
unchanged, also at the top of memory under `ADDR_WRAP = fault`. -/
def Obligations.EmptyPrimaryEntryRaises : Prop :=
  (∀ (s : State) (errCycles : Nat),
    s.byteAt s.pc ≠ s.cfg.prefixOpcode → s.byteAt s.pc ∉ s.cfg.table.populated →
      step s = .fault (.unimplementedOpcode .primary (s.byteAt s.pc) s.pc) ∧
      (stepCall errCycles s).result = .unimplementedOpcode .primary (s.byteAt s.pc) s.pc ∧
      (stepCall errCycles s).state = s) ∧
  (∀ (op : Byte) (s : State), exec (.emptyPrimary op) s = .fault (.unimplementedOpcode .primary op s.pc))

/-- Rule R105 with decision D6: the prefix byte reads a second byte, and the pair always raises UnimplementedOpcode with the
extended table, the second byte and the address of the prefix byte; at 0xFFFF under `fault` the second address raises
first. -/
def Obligations.PrefixedPairRaises : Prop :=
  (∀ s : State, s.byteAt s.pc = s.cfg.prefixOpcode → HasRoom 1 s →
    step s = .fault (.unimplementedOpcode .extended (s.byteAt (s.pc + 1)) s.pc)) ∧
  (∀ s : State, s.byteAt s.pc = s.cfg.prefixOpcode → s.cfg.addrWrap = .fault → s.pc = 0xFFFF →
    step s = .fault (.outOfRangeAddress 0x10000)) ∧
  (∀ (xx : Byte) (s : State), exec (.prefixed xx) s = .fault (.unimplementedOpcode .extended xx s.pc))

/-- Rules R101, R104 and R105: when addresses wrap, a step completes exactly when the byte at `pc` is a populated opcode and
not the prefix. -/
def Obligations.StepCompletesExactlyOnPopulatedOpcodes : Prop :=
  ∀ s : State, s.cfg.addrWrap = .wrap →
    ((∃ t, step s = .next t) ↔
      s.byteAt s.pc ≠ s.cfg.prefixOpcode ∧ s.byteAt s.pc ∈ s.cfg.table.populated)

/-- Every step completes or raises one of the two errors; the model refuses nothing (rule R112). -/
def Obligations.StepIsNeverRefused : Prop :=
  ∀ s : State, (∃ t, step s = .next t) ∨
    (∃ t op, step s = .fault (.unimplementedOpcode t op s.pc)) ∨ (∃ addr, step s = .fault (.outOfRangeAddress addr))

/-- Rule R162: a step raises OutOfRangeAddress only under `ADDR_WRAP = fault`, with the first address past the top, and only
from the last three addresses, at a byte that is populated or the prefix (rule R164). -/
def Obligations.OutOfRangeOnlyNearTheTop : Prop :=
  ∀ (s : State) (addr : Nat), step s = .fault (.outOfRangeAddress addr) →
    s.cfg.addrWrap = .fault ∧ addr = 0x10000 ∧ 0xFFFD ≤ s.pc.toNat ∧
      (s.byteAt s.pc = s.cfg.prefixOpcode ∨ s.byteAt s.pc ∈ s.cfg.table.populated)

/-- Rule R108: a completed step reports the descriptor's not-taken cycles when the descriptor is conditional and the condition
in the opcode's field `cc` is false, and its base cycles in every other case; a step that raises an error reports the draw
`ERR_CYCLES` (decision D7). -/
def Obligations.CyclesAreTheDescriptors : Prop :=
  (∀ (s : State) (f : Fault) (errCycles : Nat), step s = .fault f → (stepCall errCycles s).cycles = errCycles) ∧
  ∀ s t : State, step s = .next t →
    ∃ d, primaryEntry s.cfg.table (s.byteAt s.pc) = some d ∧
      t.report =
        match d.notTakenCycles with
        | none => d.baseCycles
        | some notTaken =>
          let cc := (s.byteAt s.pc).toNat / 8 % 4
          let holds := if cc = 0 then !s.flags.z else if cc = 1 then s.flags.z
            else if cc = 2 then !s.flags.c else s.flags.c
          if holds then d.baseCycles else notTaken

/-! The instructions -/

/-- Rule R120: `LD SP,d16`, in both configurations; the operand bytes at `pc + 1` and `pc + 2`, low byte first; nothing but
`sp` and `pc` written (in the rule by decision D10); the errors under `ADDR_WRAP = fault`. -/
def Obligations.LdSpLoadsTheStackPointer : Prop :=
  (∀ (d16 : Word) (s : State), HasRoom 3 s →
    exec (.ldSpD16 d16) s = .next { s with sp := d16, pc := s.pc + 3, report := 12 }) ∧
  (∀ s : State, s.cfg.wf = true → s.byteAt s.pc = 0x31 → HasRoom 3 s →
    step s = .next { s with
      sp := BitVec.ofNat 16 (256 * (s.byteAt (s.pc + 2)).toNat + (s.byteAt (s.pc + 1)).toNat)
      pc := s.pc + 3
      report := 12 }) ∧
  (∀ s : State, s.cfg.wf = true → s.byteAt s.pc = 0x31 → s.cfg.addrWrap = .fault → 0xFFFD ≤ s.pc.toNat →
    step s = .fault (.outOfRangeAddress 0x10000))

/-- Rule R135: `NOP` advances `pc` and does nothing else. -/
def Obligations.NopOnlyAdvances : Prop :=
  ProfileRow 0x00 (.implied .nop) 4 none ∧
  (∀ s : State, HasRoom 1 s → exec .nop s = .next { s with pc := s.pc + 1, report := 4 }) ∧
  RaisesFrom 0x00 0xFFFF

/-- Rule R130: `LD rr,d16` writes the high byte to the first-named register and the low byte to the second. -/
def Obligations.LdPairLoadsBothHalves : Prop :=
  (ProfileRow 0x01 (.imm16 .ldBcD16) 12 none ∧ ProfileRow 0x11 (.imm16 .ldDeD16) 12 none ∧
    ProfileRow 0x21 (.imm16 .ldHlD16) 12 none) ∧
  (∀ (hi lo : Byte) (s : State), HasRoom 3 s →
    let d16 := BitVec.ofNat 16 (256 * hi.toNat + lo.toNat)
    exec (.ldBcD16 d16) s = .next { s with b := hi, c := lo, pc := s.pc + 3, report := 12 } ∧
    exec (.ldDeD16 d16) s = .next { s with d := hi, e := lo, pc := s.pc + 3, report := 12 } ∧
    exec (.ldHlD16 d16) s = .next { s with h := hi, l := lo, pc := s.pc + 3, report := 12 }) ∧
  (RaisesFrom 0x01 0xFFFD ∧ RaisesFrom 0x11 0xFFFD ∧ RaisesFrom 0x21 0xFFFD)

/-- Rule R131: `LD r,d8`, whose opcode is 0x06 + 8*r. -/
def Obligations.LdRegLoadsTheImmediate : Prop :=
  (∀ (d8 : Byte) (s : State), HasRoom 2 s →
    exec (.ldBD8 d8) s = .next { s with b := d8, pc := s.pc + 2, report := 8 } ∧
    exec (.ldCD8 d8) s = .next { s with c := d8, pc := s.pc + 2, report := 8 } ∧
    exec (.ldDD8 d8) s = .next { s with d := d8, pc := s.pc + 2, report := 8 } ∧
    exec (.ldED8 d8) s = .next { s with e := d8, pc := s.pc + 2, report := 8 } ∧
    exec (.ldHD8 d8) s = .next { s with h := d8, pc := s.pc + 2, report := 8 } ∧
    exec (.ldLD8 d8) s = .next { s with l := d8, pc := s.pc + 2, report := 8 } ∧
    exec (.ldAD8 d8) s = .next { s with a := d8, pc := s.pc + 2, report := 8 }) ∧
  (∀ x ∈ [(0, Instr.ldBD8), (1, Instr.ldCD8), (2, Instr.ldDD8), (3, Instr.ldED8), (4, Instr.ldHD8), (5, Instr.ldLD8),
      (7, Instr.ldAD8)],
    ProfileRow (BitVec.ofNat 8 (0x06 + 8 * x.1)) (.imm8 x.2) 8 none ∧
    RaisesFrom (BitVec.ofNat 8 (0x06 + 8 * x.1)) 0xFFFE)

/-- Rules R132 and R134: the two stores put their byte at the address HL, where the next fetch of that address reads it, and
change no other byte and no register but `pc`. -/
def Obligations.StoresWriteTheByteAtHl : Prop :=
  (ProfileRow 0x36 (.imm8 .ldIndHlD8) 12 none ∧ ProfileRow 0x77 (.implied .ldIndHlA) 8 none) ∧
  (∀ (d8 : Byte) (s : State), HasRoom 2 s →
    ∃ m : Memory, exec (.ldIndHlD8 d8) s = .next { s with mem := m, pc := s.pc + 2, report := 12 } ∧
      StoresByte s.hl d8 s { s with mem := m }) ∧
  (∀ s : State, HasRoom 1 s →
    ∃ m : Memory, exec .ldIndHlA s = .next { s with mem := m, pc := s.pc + 1, report := 8 } ∧
      StoresByte s.hl s.a s { s with mem := m }) ∧
  (RaisesFrom 0x36 0xFFFE ∧ RaisesFrom 0x77 0xFFFF)

/-- Rule R133: `LD A,(HL)`. -/
def Obligations.LdALoadsTheByteAtHl : Prop :=
  ProfileRow 0x7E (.implied .ldAIndHl) 8 none ∧
  (∀ s : State, HasRoom 1 s →
    exec .ldAIndHl s = .next { s with a := s.byteAt s.hl, pc := s.pc + 1, report := 8 }) ∧
  RaisesFrom 0x7E 0xFFFF

/-- Rules R140, R141 and R142: the three operand forms of ADD, over the operation of rule R91. -/
def Obligations.AddWritesAAndFlags : Prop :=
  (∀ x ∈ [(0x80#8, Instr.addAB, Reg.b), (0x81#8, Instr.addAC, Reg.c), (0x82#8, Instr.addAD, Reg.d),
      (0x83#8, Instr.addAE, Reg.e), (0x84#8, Instr.addAH, Reg.h), (0x85#8, Instr.addAL, Reg.l),
      (0x87#8, Instr.addAA, Reg.a)],
    ProfileRow x.1 (.implied x.2.1) 4 none ∧ RaisesFrom x.1 0xFFFF ∧
    ∀ s : State, HasRoom 1 s →
      exec x.2.1 s = .next { s with
        a := (aluAdd s.a (s.reg x.2.2) s.flags).1, flags := (aluAdd s.a (s.reg x.2.2) s.flags).2
        pc := s.pc + 1, report := 4 }) ∧
  (ProfileRow 0x86 (.implied .addAIndHl) 8 none ∧ RaisesFrom 0x86 0xFFFF ∧
    ∀ s : State, HasRoom 1 s →
      exec .addAIndHl s = .next { s with
        a := (aluAdd s.a (s.byteAt s.hl) s.flags).1, flags := (aluAdd s.a (s.byteAt s.hl) s.flags).2
        pc := s.pc + 1, report := 8 }) ∧
  (ProfileRow 0xC6 (.imm8 .addAD8) 8 none ∧ RaisesFrom 0xC6 0xFFFE ∧
    ∀ (d8 : Byte) (s : State), HasRoom 2 s →
      exec (.addAD8 d8) s = .next { s with
        a := (aluAdd s.a d8 s.flags).1, flags := (aluAdd s.a d8 s.flags).2
        pc := s.pc + 2, report := 8 })

/-- Rules R143, R144 and R145: the three operand forms of ADC, over the operation of rule R92. -/
def Obligations.AdcWritesAAndFlags : Prop :=
  (∀ x ∈ [(0x88#8, Instr.adcAB, Reg.b), (0x89#8, Instr.adcAC, Reg.c), (0x8A#8, Instr.adcAD, Reg.d),
      (0x8B#8, Instr.adcAE, Reg.e), (0x8C#8, Instr.adcAH, Reg.h), (0x8D#8, Instr.adcAL, Reg.l),
      (0x8F#8, Instr.adcAA, Reg.a)],
    ProfileRow x.1 (.implied x.2.1) 4 none ∧ RaisesFrom x.1 0xFFFF ∧
    ∀ s : State, HasRoom 1 s →
      exec x.2.1 s = .next { s with
        a := (aluAdc s.a (s.reg x.2.2) s.flags).1, flags := (aluAdc s.a (s.reg x.2.2) s.flags).2
        pc := s.pc + 1, report := 4 }) ∧
  (ProfileRow 0x8E (.implied .adcAIndHl) 8 none ∧ RaisesFrom 0x8E 0xFFFF ∧
    ∀ s : State, HasRoom 1 s →
      exec .adcAIndHl s = .next { s with
        a := (aluAdc s.a (s.byteAt s.hl) s.flags).1, flags := (aluAdc s.a (s.byteAt s.hl) s.flags).2
        pc := s.pc + 1, report := 8 }) ∧
  (ProfileRow 0xCE (.imm8 .adcAD8) 8 none ∧ RaisesFrom 0xCE 0xFFFE ∧
    ∀ (d8 : Byte) (s : State), HasRoom 2 s →
      exec (.adcAD8 d8) s = .next { s with
        a := (aluAdc s.a d8 s.flags).1, flags := (aluAdc s.a d8 s.flags).2
        pc := s.pc + 2, report := 8 })

/-- Rules R146, R147 and R148: the three operand forms of SUB, over the operation of rule R93. -/
def Obligations.SubWritesAAndFlags : Prop :=
  (∀ x ∈ [(0x90#8, Instr.subB, Reg.b), (0x91#8, Instr.subC, Reg.c), (0x92#8, Instr.subD, Reg.d),
      (0x93#8, Instr.subE, Reg.e), (0x94#8, Instr.subH, Reg.h), (0x95#8, Instr.subL, Reg.l),
      (0x97#8, Instr.subA, Reg.a)],
    ProfileRow x.1 (.implied x.2.1) 4 none ∧ RaisesFrom x.1 0xFFFF ∧
    ∀ s : State, HasRoom 1 s →
      exec x.2.1 s = .next { s with
        a := (aluSub s.a (s.reg x.2.2) s.flags).1, flags := (aluSub s.a (s.reg x.2.2) s.flags).2
        pc := s.pc + 1, report := 4 }) ∧
  (ProfileRow 0x96 (.implied .subIndHl) 8 none ∧ RaisesFrom 0x96 0xFFFF ∧
    ∀ s : State, HasRoom 1 s →
      exec .subIndHl s = .next { s with
        a := (aluSub s.a (s.byteAt s.hl) s.flags).1, flags := (aluSub s.a (s.byteAt s.hl) s.flags).2
        pc := s.pc + 1, report := 8 }) ∧
  (ProfileRow 0xD6 (.imm8 .subD8) 8 none ∧ RaisesFrom 0xD6 0xFFFE ∧
    ∀ (d8 : Byte) (s : State), HasRoom 2 s →
      exec (.subD8 d8) s = .next { s with
        a := (aluSub s.a d8 s.flags).1, flags := (aluSub s.a d8 s.flags).2
        pc := s.pc + 2, report := 8 })

/-- Rule R150: `JP a16` completes everywhere its operands can be read, at 0xFFFD under `fault` too. -/
def Obligations.JpSetsPc : Prop :=
  ProfileRow 0xC3 (.imm16 .jpA16) 16 none ∧
  (∀ (a16 : Word) (s : State), exec (.jpA16 a16) s = .next { s with pc := a16, report := 16 }) ∧
  (∀ s : State, FetchesProfile 0xC3 s → HasRoom 2 s →
    step s = .next { s with
      pc := BitVec.ofNat 16 (256 * (s.byteAt (s.pc + 2)).toNat + (s.byteAt (s.pc + 1)).toNat)
      report := 16 }) ∧
  RaisesFrom 0xC3 0xFFFE

/-- Rules R151 and R154: `JP cc,a16` jumps when its condition holds and falls through when not; at 0xFFFD under `fault` it
raises only when not. -/
def Obligations.JpConditionalTakesItsCondition : Prop :=
  ∀ x ∈ [(0xC2#8, Instr.jpNzA16, fun f : Flags => !f.z), (0xCA#8, Instr.jpZA16, fun f : Flags => f.z),
      (0xD2#8, Instr.jpNcA16, fun f : Flags => !f.c), (0xDA#8, Instr.jpCA16, fun f : Flags => f.c)],
    ProfileRow x.1 (.imm16 x.2.1) 16 (some 12) ∧
    (∀ (a16 : Word) (s : State), x.2.2 s.flags = true →
      exec (x.2.1 a16) s = .next { s with pc := a16, report := 16 }) ∧
    (∀ (a16 : Word) (s : State), x.2.2 s.flags = false → HasRoom 3 s →
      exec (x.2.1 a16) s = .next { s with pc := s.pc + 3, report := 12 }) ∧
    RaisesFrom x.1 0xFFFE ∧
    (∀ s : State, FetchesProfile x.1 s → s.cfg.addrWrap = .fault → s.pc = 0xFFFD → x.2.2 s.flags = false →
      step s = .fault (.outOfRangeAddress 0x10000))

/-- Rule R152: `JR e8` adds the signed displacement to the address after the instruction, modulo 2^16 under both values of
`ADDR_WRAP`. -/
def Obligations.JrAddsItsDisplacement : Prop :=
  ProfileRow 0x18 (.imm8 .jrE8) 12 none ∧
  (∀ (e8 : Byte) (s : State), HasRoom 2 s →
    exec (.jrE8 e8) s = .next { s with
      pc := BitVec.ofInt 16 ((s.pc.toNat : Int) + 2 + e8.toInt), report := 12 }) ∧
  RaisesFrom 0x18 0xFFFE

/-- Rules R153 and R154: `JR cc,e8`. -/
def Obligations.JrConditionalTakesItsCondition : Prop :=
  ∀ x ∈ [(0x20#8, Instr.jrNzE8, fun f : Flags => !f.z), (0x28#8, Instr.jrZE8, fun f : Flags => f.z),
      (0x30#8, Instr.jrNcE8, fun f : Flags => !f.c), (0x38#8, Instr.jrCE8, fun f : Flags => f.c)],
    ProfileRow x.1 (.imm8 x.2.1) 12 (some 8) ∧
    (∀ (e8 : Byte) (s : State), x.2.2 s.flags = true → HasRoom 2 s →
      exec (x.2.1 e8) s = .next { s with
        pc := BitVec.ofInt 16 ((s.pc.toNat : Int) + 2 + e8.toInt), report := 12 }) ∧
    (∀ (e8 : Byte) (s : State), x.2.2 s.flags = false → HasRoom 2 s →
      exec (x.2.1 e8) s = .next { s with pc := s.pc + 2, report := 8 }) ∧
    RaisesFrom x.1 0xFFFE

/-! Frames -/

/-- Rule R101 (decision D10), for the ALU forms: only A, the flags and `pc` may change, and memory reads as before. -/
def Obligations.AluFormsFrame : Prop :=
  ∀ (i : Instr) (d8 : Byte) (s t : State),
    i ∈ [.addAB, .addAC, .addAD, .addAE, .addAH, .addAL, .addAA, .addAIndHl, .addAD8 d8,
      .adcAB, .adcAC, .adcAD, .adcAE, .adcAH, .adcAL, .adcAA, .adcAIndHl, .adcAD8 d8,
      .subB, .subC, .subD, .subE, .subH, .subL, .subA, .subIndHl, .subD8 d8] →
    exec i s = .next t →
      t.b = s.b ∧ t.c = s.c ∧ t.d = s.d ∧ t.e = s.e ∧ t.h = s.h ∧ t.l = s.l ∧ t.sp = s.sp ∧ t.cfg = s.cfg ∧
        ∀ x : Word, t.byteAt x = s.byteAt x

/-- Rule R101 (decision D10), for the loads of registers: only the destination and `pc` may change; the flags and every byte
of memory stay. -/
def Obligations.RegisterLoadsFrame : Prop :=
  ∀ (d8 : Byte) (d16 : Word) (s t : State),
    (∀ x ∈ [(Instr.ldBD8 d8, [Reg.b]), (Instr.ldCD8 d8, [Reg.c]), (Instr.ldDD8 d8, [Reg.d]), (Instr.ldED8 d8, [Reg.e]),
        (Instr.ldHD8 d8, [Reg.h]), (Instr.ldLD8 d8, [Reg.l]), (Instr.ldAD8 d8, [Reg.a]), (Instr.ldAIndHl, [Reg.a]),
        (Instr.ldBcD16 d16, [Reg.b, Reg.c]), (Instr.ldDeD16 d16, [Reg.d, Reg.e]), (Instr.ldHlD16 d16, [Reg.h, Reg.l])],
      exec x.1 s = .next t →
        (∀ r, r ∉ x.2 → t.reg r = s.reg r) ∧ t.flags = s.flags ∧ t.sp = s.sp ∧ t.cfg = s.cfg ∧
          ∀ y : Word, t.byteAt y = s.byteAt y) ∧
    (exec (.ldSpD16 d16) s = .next t →
      (∀ r, t.reg r = s.reg r) ∧ t.flags = s.flags ∧ t.cfg = s.cfg ∧ ∀ y : Word, t.byteAt y = s.byteAt y)

/-- Rule R101 (decision D10), for the stores: the address stored to is HL of the state before; every other byte, every
register, the flags and `sp` stay. -/
def Obligations.StoresFrame : Prop :=
  ∀ (i : Instr) (d8 : Byte) (s t : State), i ∈ [.ldIndHlD8 d8, .ldIndHlA] → exec i s = .next t →
    (∀ r, t.reg r = s.reg r) ∧ t.flags = s.flags ∧ t.sp = s.sp ∧ t.cfg = s.cfg ∧
      ∀ addr : Word, s.hl = addr → ∀ x : Word, x ≠ addr → t.byteAt x = s.byteAt x

/-- Rule R101 (decision D10), for NOP and the jumps: nothing but `pc` (and the cycle report) may change. -/
def Obligations.JumpsFrame : Prop :=
  ∀ (i : Instr) (a16 : Word) (e8 : Byte) (s t : State),
    i ∈ [.nop, .jpA16 a16, .jpNzA16 a16, .jpZA16 a16, .jpNcA16 a16, .jpCA16 a16,
      .jrE8 e8, .jrNzE8 e8, .jrZE8 e8, .jrNcE8 e8, .jrCE8 e8] →
    exec i s = .next t →
      (∀ r, t.reg r = s.reg r) ∧ t.flags = s.flags ∧ t.sp = s.sp ∧ t.cfg = s.cfg ∧
        ∀ x : Word, t.byteAt x = s.byteAt x

/-! The whole machine -/

/-- The invariant is kept by every step, from every state that meets it. -/
def Obligations.StepKeepsTheInvariant : Prop :=
  ∀ s t : State, Inv s → step s = .next t → Inv t

/-- Rule R35: no step changes the instruction tables or the other parameters. -/
def Obligations.StepKeepsTheTables : Prop :=
  ∀ s t : State, step s = .next t → t.cfg = s.cfg

/-- Rule R31: only `LD SP,d16` writes the stack pointer, and the value it writes is not read by anything else: the rest of the
next state, and whether the step completes, do not depend on `sp`. -/
def Obligations.OnlyLdSpWritesTheStackPointer : Prop :=
  (∀ s t : State, step s = .next t → t.sp ≠ s.sp → s.byteAt s.pc = 0x31) ∧
  (∀ (s t : State) (v : Word), step s = .next t →
    ∃ v', step { s with sp := v } = .next { t with sp := v' })

/-- Rules R41 and R50: a step changes at most one byte of memory, the one at HL, and only under the opcodes 0x36 and 0x77. -/
def Obligations.OnlyStoresWriteMemory : Prop :=
  ∀ (s t : State) (x : Word), step s = .next t → t.byteAt x ≠ s.byteAt x →
    x = s.hl ∧ (s.byteAt s.pc = 0x36 ∨ s.byteAt s.pc = 0x77) ∧ s.cfg.table = .sm83gk

/-- Rule R23: only the ALU opcodes write a flag, and every one of them sets N by its kind. -/
def Obligations.OnlyAluOpcodesWriteFlags : Prop :=
  ∀ s t : State, step s = .next t →
    let op := (s.byteAt s.pc).toNat
    let alu := (0x80 ≤ op ∧ op ≤ 0x97) ∨ op = 0xC6 ∨ op = 0xCE ∨ op = 0xD6
    (¬ alu → t.flags = s.flags) ∧
    (alu → (t.flags.n = true ↔ (0x90 ≤ op ∧ op ≤ 0x97) ∨ op = 0xD6) ∧ (t.flags.z = true ↔ t.a = 0))

/-- Rule R41, a sentence the spec marks as derived: under GOBOY-DOC a step that completes writes `sp` and `pc` only. -/
def Obligations.DocumentedCoreWritesOnlySpAndPc : Prop :=
  ∀ s t : State, s.cfg.table = .gobyDoc → step s = .next t →
    t = { s with sp := t.sp, pc := s.pc + 3, report := 12 } ∧
      t.sp.toNat = 256 * (s.byteAt (s.pc + 2)).toNat + (s.byteAt (s.pc + 1)).toNat

/-- Rule R4: SM83-GK is GOBOY-DOC plus rows; a step that completes under GOBOY-DOC completes alike under SM83-GK. -/
def Obligations.ProfileExtendsTheDocumentedCore : Prop :=
  ∀ s t : State, s.cfg.table = .gobyDoc → step s = .next t →
    step { s with cfg := { s.cfg with table := .sm83gk } } = .next { t with cfg := { t.cfg with table := .sm83gk } }

/-- Rule R56: a step that completes under `ADDR_WRAP = fault` completes alike under `wrap`. -/
def Obligations.WrapAgreesWhereFaultCompletes : Prop :=
  ∀ s t : State, s.cfg.addrWrap = .fault → step s = .next t →
    step { s with cfg := { s.cfg with addrWrap := .wrap } } = .next { t with cfg := { t.cfg with addrWrap := .wrap } }

/-- Rule R186: no step reads the cycle report (the model's own field, log entry 6). -/
def Obligations.CycleReportIsNeverRead : Prop :=
  ∀ (s : State) (k : Nat), step { s with report := k } = step s

/-- Rule R64, which the spec derives: a byte stored by `LD (HL),A` over the next opcode is the opcode the next step fetches;
here an empty entry, so that step raises. -/
def Obligations.NextFetchSeesTheStoredByte : Prop :=
  ∀ s t : State, FetchesProfile 0x77 s → step s = .next t → s.hl = t.pc →
    s.a ≠ s.cfg.prefixOpcode → s.a ∉ s.cfg.table.populated →
      step t = .fault (.unimplementedOpcode .primary s.a t.pc)

/-- Rules R109 and R112 (decision D11): a step call that reports an error leaves the state as it was, reports the draw
`ERR_CYCLES`, and the same error comes again; one that reports `Ok` gives the next state and its cycles. -/
def Obligations.ErrorsCommitNothing : Prop :=
  ∀ (s : State) (errCycles again : Nat),
    ((stepCall errCycles s).result = .ok →
      step s = .next (stepCall errCycles s).state ∧ (stepCall errCycles s).cycles = (stepCall errCycles s).state.report) ∧
    ((stepCall errCycles s).result ≠ .ok →
      (stepCall errCycles s).state = s ∧ (stepCall errCycles s).cycles = errCycles ∧
      (stepCall again (stepCall errCycles s).state).result = (stepCall errCycles s).result)

/-- Rules R111 and R175 (decisions D12 and D13): what a run has come to stays, whatever fuel is added, and a run that faults
is never a safe run. -/
def Obligations.RunOutcomesAreFinal : Prop :=
  ∀ (endPc : Word) (s : State) (fuel more : Nat),
    (∀ t steps cycles, runTo endPc fuel s = .ended t steps cycles →
      t.pc = endPc ∧ runTo endPc (fuel + more) s = .ended t steps cycles) ∧
    (∀ f t steps cycles, runTo endPc fuel s = .faulted f t steps cycles →
      runTo endPc (fuel + more) s = .faulted f t steps cycles ∧ step t = .fault f ∧ ¬ SafeRun endPc s)

/-! Injection and launch -/

/-- Rule R39 (what a supplied state contains is decision D21): the injected core holds each supplied value, the memory `MEM0`
and the parameters. -/
def Obligations.InjectionHoldsTheSuppliedState : Prop :=
  ∀ (p : Params) (mem0 : Memory) (init : InitialState),
    let s := State.inject p mem0 init
    s.a = init.a ∧ s.b = init.b ∧ s.c = init.c ∧ s.d = init.d ∧ s.e = init.e ∧ s.h = init.h ∧ s.l = init.l ∧
      s.flags.z = init.flags.z ∧ s.flags.n = init.flags.n ∧ s.flags.h = init.flags.h ∧ s.flags.c = init.flags.c ∧
      s.sp = init.sp ∧ s.pc = init.pc ∧ s.mem = mem0 ∧ s.cfg = p

/-- Rules R55, R163 and R182: a launch without images is the created or supplied state; an image that was read and fits is
loaded, each byte at its address and no other byte changed, and the launch goes on from that memory; one that does not fit
ends it with OutOfRangeAddress (past 0xFFFF: log entry 8), before any later image is looked at (the model's choice, log
entry 19); one that could not be read ends it with ImageReadError. -/
def Obligations.BootLoadsItsImages : Prop :=
  ∀ (p : Params) (mem0 : Memory) (init : Option InitialState),
    boot p mem0 none [] = .ok (State.create p mem0) ∧
    (∀ i : InitialState, boot p mem0 (some i) [] = .ok (State.inject p mem0 i)) ∧
    (∀ (bytes : List Byte) (origin : Word) (rest : List Image), origin.toNat + bytes.length ≤ 0x10000 →
      ∃ m, boot p mem0 init ({ source := .read bytes, origin := origin } :: rest) = boot p m init rest ∧
        (∀ k, ∀ hk : k < bytes.length, m.read (origin.toNat + k) = bytes[k]) ∧
        (∀ x, x < origin.toNat ∨ origin.toNat + bytes.length ≤ x → m.read x = mem0.read x)) ∧
    (∀ (bytes : List Byte) (origin : Word) (rest : List Image), 0x10000 < origin.toNat + bytes.length →
      ∃ addr, 0xFFFF < addr ∧
        boot p mem0 init ({ source := .read bytes, origin := origin } :: rest) = .error (.outOfRangeAddress addr)) ∧
    (∀ (why : ReadFailure) (origin : Word) (rest : List Image),
      boot p mem0 init ({ source := .failed why, origin := origin } :: rest) = .error (.imageReadError why))
end

