-- ==== Sys2Proof/Laws/Memory.lean ====
section
/-! SUPPORT. What the memory operations do (reads after writes) and that they keep the canonical form. -/

namespace Sys2Proof.Laws

open Sys2Proof.Machine

@[simp] theorem read_nil (x : Nat) : Memory.read [] x = 0 := rfl

theorem read_cons (k : Nat) (v : Byte) (m : Memory) (x : Nat) :
    Memory.read ((k, v) :: m) x = if x = k then v else Memory.read m x := by
  by_cases h : x = k
  · simp [Memory.read, List.lookup, h]
  · have hb : (x == k) = false := by simpa using h
    simp [Memory.read, List.lookup, hb, h]

/-! Filtering out one address -/

theorem read_filter_same (m : Memory) (addr : Nat) :
    Memory.read (m.filter (fun cell => cell.1 != addr)) addr = 0 := by
  induction m with
  | nil => rfl
  | cons cell rest ih =>
    obtain ⟨k, w⟩ := cell
    by_cases h : k = addr
    · simpa [List.filter, h] using ih
    · have hb : (k != addr) = true := by simpa using h
      simp only [List.filter, hb, read_cons, ih]
      simp [Ne.symm h]

theorem read_filter_other (m : Memory) (addr x : Nat) (hx : x ≠ addr) :
    Memory.read (m.filter (fun cell => cell.1 != addr)) x = Memory.read m x := by
  induction m with
  | nil => rfl
  | cons cell rest ih =>
    obtain ⟨k, w⟩ := cell
    by_cases h : k = addr
    · subst h
      simpa [List.filter, read_cons, hx] using ih
    · have hb : (k != addr) = true := by simpa using h
      simp only [List.filter, hb, read_cons, ih]

/-! Inserting a cell at an address that is not listed -/

theorem read_insertCell (m : Memory) (addr : Nat) (v : Byte) (x : Nat)
    (hno : ∀ cell ∈ m, cell.1 ≠ addr) :
    Memory.read (Memory.insertCell addr v m) x = if x = addr then v else Memory.read m x := by
  induction m with
  | nil => simp [Memory.insertCell, read_cons]
  | cons cell rest ih =>
    obtain ⟨k, w⟩ := cell
    have hk : k ≠ addr := hno (k, w) (by simp)
    have hrest : ∀ cell ∈ rest, cell.1 ≠ addr := fun c hc => hno c (by simp [hc])
    by_cases hlt : addr < k
    · simp [Memory.insertCell, hlt, read_cons]
    · simp only [Memory.insertCell, hlt, if_false, read_cons, ih hrest]
      by_cases hx : x = k
      · subst hx; simp [hk]
      · simp [hx]

theorem filter_not_listed (m : Memory) (addr : Nat) :
    ∀ cell ∈ m.filter (fun cell => cell.1 != addr), cell.1 ≠ addr := by
  intro cell hc
  simpa using (List.mem_filter.mp hc).2

/-- What a write does, said through reads, on any list of cells: the byte written at its address, every other byte as
before (rule R50). -/
theorem read_write (m : Memory) (addr : Nat) (v : Byte) (x : Nat) :
    (m.write addr v).read x = if x = addr then v else m.read x := by
  unfold Memory.write
  by_cases hv : v = 0
  · by_cases hx : x = addr
    · subst hx; simp [hv, read_filter_same]
    · simp [hv, hx, read_filter_other]
  · simp only [hv, if_false, read_insertCell _ _ _ _ (filter_not_listed m addr)]
    by_cases hx : x = addr
    · simp [hx]
    · simp [hx, read_filter_other]

/-- Bytes written at consecutive addresses, said through reads (rule R55). -/
theorem read_writeBytes (bytes : List Byte) (m : Memory) (addr x : Nat) :
    (m.writeBytes addr bytes).read x =
      if addr ≤ x then (bytes[x - addr]?).getD (m.read x) else m.read x := by
  induction bytes generalizing m addr with
  | nil => simp [Memory.writeBytes]
  | cons v rest ih =>
    simp only [Memory.writeBytes, ih, read_write]
    by_cases h1 : addr + 1 ≤ x
    · have h2 : addr ≤ x := by omega
      have h3 : x ≠ addr := by omega
      have h4 : x - addr = (x - (addr + 1)) + 1 := by omega
      simp [h1, h2, h3, h4]
    · by_cases h2 : x = addr
      · subst h2; simp
      · have h3 : ¬ addr ≤ x := by omega
        simp [h1, h2, h3]

/-! The canonical form -/

theorem wf_cons (cell : Host.Cell) (m : Memory) :
    Memory.wf (cell :: m) = true ↔
      cell.1 < 0x10000 ∧ cell.2 ≠ 0 ∧ (∀ other ∈ m, cell.1 < other.1) ∧ Memory.wf m = true := by
  simp [Memory.wf, List.all_eq_true, and_assoc]

theorem wf_filter (m : Memory) (p : Host.Cell → Bool) (h : m.wf = true) : Memory.wf (m.filter p) = true := by
  induction m with
  | nil => rfl
  | cons cell rest ih =>
    obtain ⟨h1, h2, h3, h4⟩ := (wf_cons cell rest).mp h
    by_cases hp : p cell = true
    · simp only [List.filter, hp]
      exact (wf_cons _ _).mpr ⟨h1, h2, fun o ho => h3 o (List.mem_of_mem_filter ho), ih h4⟩
    · have : p cell = false := by simpa using hp
      simpa only [List.filter, this] using ih h4

theorem mem_insertCell (m : Memory) (addr : Nat) (v : Byte) (other : Host.Cell)
    (h : other ∈ Memory.insertCell addr v m) : other = (addr, v) ∨ other ∈ m := by
  induction m with
  | nil => simpa [Memory.insertCell] using h
  | cons cell rest ih =>
    by_cases hlt : addr < cell.1
    · simpa [Memory.insertCell, hlt] using h
    · simp only [Memory.insertCell, hlt, if_false, List.mem_cons] at h
      rcases h with h | h
      · simp [h]
      · rcases ih h with h | h <;> simp [h]

theorem wf_insertCell (m : Memory) (addr : Nat) (v : Byte) (h : m.wf = true)
    (haddr : addr < 0x10000) (hv : v ≠ 0) (hno : ∀ cell ∈ m, cell.1 ≠ addr) :
    Memory.wf (Memory.insertCell addr v m) = true := by
  induction m with
  | nil => exact (wf_cons _ _).mpr ⟨haddr, hv, by simp, rfl⟩
  | cons cell rest ih =>
    obtain ⟨h1, h2, h3, h4⟩ := (wf_cons cell rest).mp h
    have hk : cell.1 ≠ addr := hno cell (by simp)
    by_cases hlt : addr < cell.1
    · simp only [Memory.insertCell, hlt, if_true]
      refine (wf_cons _ _).mpr ⟨haddr, hv, ?_, h⟩
      intro o ho
      rcases List.mem_cons.mp ho with ho | ho
      · simpa [ho] using hlt
      · exact lt_trans hlt (h3 o ho)
    · simp only [Memory.insertCell, hlt, if_false]
      refine (wf_cons _ _).mpr ⟨h1, h2, ?_, ih h4 (fun c hc => hno c (by simp [hc]))⟩
      intro o ho
      rcases mem_insertCell _ _ _ _ ho with ho | ho
      · subst ho
        show cell.1 < addr
        omega
      · exact h3 o ho

/-- A write in range keeps the canonical form. -/
theorem wf_write (m : Memory) (addr : Nat) (v : Byte) (h : m.wf = true) (haddr : addr < 0x10000) :
    (m.write addr v).wf = true := by
  unfold Memory.write
  by_cases hv : v = 0
  · simpa [hv] using wf_filter m _ h
  · simp only [hv, if_false]
    exact wf_insertCell _ addr v (wf_filter m _ h) haddr hv (filter_not_listed m addr)

theorem wf_writeBytes (bytes : List Byte) (m : Memory) (addr : Nat) (h : m.wf = true)
    (hfit : addr + bytes.length ≤ 0x10000) : (m.writeBytes addr bytes).wf = true := by
  induction bytes generalizing m addr with
  | nil => exact h
  | cons v rest ih =>
    simp only [List.length_cons] at hfit
    exact ih _ _ (wf_write m addr v h (by omega)) (by omega)

/-- A bus write that succeeds keeps the canonical form (rule R50). -/
theorem wf_busWrite (m m' : Memory) (addr : Nat) (v : Byte) (h : m.wf = true) (hw : busWrite m addr v = .ok m') :
    m'.wf = true := by
  unfold busWrite at hw
  split at hw
  · cases hw; exact wf_write m addr v h (by omega)
  · cases hw

/-- Placing a word where the next step fetches keeps the canonical form. -/
theorem wf_placeBytes (bytes : List Byte) (base : Word) (k : Nat) (s : State) (h : s.mem.wf = true) :
    (placeBytes base k bytes s).mem.wf = true := by
  induction bytes generalizing k s with
  | nil => exact h
  | cons v rest ih =>
    unfold placeBytes
    split
    · exact h
    · exact ih _ _ (wf_write s.mem _ v h (by omega))

/-- An image load that succeeds keeps the canonical form (rule R55). -/
theorem wf_loadImage (m m' : Memory) (bytes : List Byte) (origin : Word) (h : m.wf = true)
    (hl : loadImage m bytes origin = .ok m') : m'.wf = true := by
  unfold loadImage at hl
  split at hl
  · cases hl
  · cases hl; exact wf_writeBytes bytes m _ h (by omega)

/-- Memory at reset is in the canonical form. -/
theorem wf_reset : State.reset.mem.wf = true := rfl

end Sys2Proof.Laws
end

