-- ==== Sys2Proof/Laws/State.lean ====
section
/-! SUPPORT. One lemma per field per named update of State, each true by unfolding once, so that later proofs unfold no record
update; and the reads of the registers after a write. -/

namespace Sys2Proof.Laws

open Sys2Proof.Machine

/-! `set_BC`, `set_DE`, `set_HL`, `set_AF` and the write-back of the ALU: the fields they leave, and those they write -/

@[simp] theorem setBc_a (s : State) (v : Word) : (s.setBc v).a = s.a := rfl
@[simp] theorem setBc_b (s : State) (v : Word) : (s.setBc v).b = hiByte v := rfl
@[simp] theorem setBc_c (s : State) (v : Word) : (s.setBc v).c = loByte v := rfl
@[simp] theorem setBc_d (s : State) (v : Word) : (s.setBc v).d = s.d := rfl
@[simp] theorem setBc_e (s : State) (v : Word) : (s.setBc v).e = s.e := rfl
@[simp] theorem setBc_h (s : State) (v : Word) : (s.setBc v).h = s.h := rfl
@[simp] theorem setBc_l (s : State) (v : Word) : (s.setBc v).l = s.l := rfl
@[simp] theorem setBc_flags (s : State) (v : Word) : (s.setBc v).flags = s.flags := rfl
@[simp] theorem setBc_sp (s : State) (v : Word) : (s.setBc v).sp = s.sp := rfl
@[simp] theorem setBc_pc (s : State) (v : Word) : (s.setBc v).pc = s.pc := rfl
@[simp] theorem setBc_mem (s : State) (v : Word) : (s.setBc v).mem = s.mem := rfl
@[simp] theorem setBc_cfg (s : State) (v : Word) : (s.setBc v).cfg = s.cfg := rfl
@[simp] theorem setBc_report (s : State) (v : Word) : (s.setBc v).report = s.report := rfl

@[simp] theorem setDe_a (s : State) (v : Word) : (s.setDe v).a = s.a := rfl
@[simp] theorem setDe_b (s : State) (v : Word) : (s.setDe v).b = s.b := rfl
@[simp] theorem setDe_c (s : State) (v : Word) : (s.setDe v).c = s.c := rfl
@[simp] theorem setDe_d (s : State) (v : Word) : (s.setDe v).d = hiByte v := rfl
@[simp] theorem setDe_e (s : State) (v : Word) : (s.setDe v).e = loByte v := rfl
@[simp] theorem setDe_h (s : State) (v : Word) : (s.setDe v).h = s.h := rfl
@[simp] theorem setDe_l (s : State) (v : Word) : (s.setDe v).l = s.l := rfl
@[simp] theorem setDe_flags (s : State) (v : Word) : (s.setDe v).flags = s.flags := rfl
@[simp] theorem setDe_sp (s : State) (v : Word) : (s.setDe v).sp = s.sp := rfl
@[simp] theorem setDe_pc (s : State) (v : Word) : (s.setDe v).pc = s.pc := rfl
@[simp] theorem setDe_mem (s : State) (v : Word) : (s.setDe v).mem = s.mem := rfl
@[simp] theorem setDe_cfg (s : State) (v : Word) : (s.setDe v).cfg = s.cfg := rfl
@[simp] theorem setDe_report (s : State) (v : Word) : (s.setDe v).report = s.report := rfl

@[simp] theorem setHl_a (s : State) (v : Word) : (s.setHl v).a = s.a := rfl
@[simp] theorem setHl_b (s : State) (v : Word) : (s.setHl v).b = s.b := rfl
@[simp] theorem setHl_c (s : State) (v : Word) : (s.setHl v).c = s.c := rfl
@[simp] theorem setHl_d (s : State) (v : Word) : (s.setHl v).d = s.d := rfl
@[simp] theorem setHl_e (s : State) (v : Word) : (s.setHl v).e = s.e := rfl
@[simp] theorem setHl_h (s : State) (v : Word) : (s.setHl v).h = hiByte v := rfl
@[simp] theorem setHl_l (s : State) (v : Word) : (s.setHl v).l = loByte v := rfl
@[simp] theorem setHl_flags (s : State) (v : Word) : (s.setHl v).flags = s.flags := rfl
@[simp] theorem setHl_sp (s : State) (v : Word) : (s.setHl v).sp = s.sp := rfl
@[simp] theorem setHl_pc (s : State) (v : Word) : (s.setHl v).pc = s.pc := rfl
@[simp] theorem setHl_mem (s : State) (v : Word) : (s.setHl v).mem = s.mem := rfl
@[simp] theorem setHl_cfg (s : State) (v : Word) : (s.setHl v).cfg = s.cfg := rfl
@[simp] theorem setHl_report (s : State) (v : Word) : (s.setHl v).report = s.report := rfl

@[simp] theorem setAf_a (s : State) (v : Word) : (s.setAf v).a = hiByte v := rfl
@[simp] theorem setAf_b (s : State) (v : Word) : (s.setAf v).b = s.b := rfl
@[simp] theorem setAf_c (s : State) (v : Word) : (s.setAf v).c = s.c := rfl
@[simp] theorem setAf_d (s : State) (v : Word) : (s.setAf v).d = s.d := rfl
@[simp] theorem setAf_e (s : State) (v : Word) : (s.setAf v).e = s.e := rfl
@[simp] theorem setAf_h (s : State) (v : Word) : (s.setAf v).h = s.h := rfl
@[simp] theorem setAf_l (s : State) (v : Word) : (s.setAf v).l = s.l := rfl
@[simp] theorem setAf_flags (s : State) (v : Word) : (s.setAf v).flags = Flags.unpack (loByte v) := rfl
@[simp] theorem setAf_sp (s : State) (v : Word) : (s.setAf v).sp = s.sp := rfl
@[simp] theorem setAf_pc (s : State) (v : Word) : (s.setAf v).pc = s.pc := rfl
@[simp] theorem setAf_mem (s : State) (v : Word) : (s.setAf v).mem = s.mem := rfl
@[simp] theorem setAf_cfg (s : State) (v : Word) : (s.setAf v).cfg = s.cfg := rfl
@[simp] theorem setAf_report (s : State) (v : Word) : (s.setAf v).report = s.report := rfl

@[simp] theorem withAlu_a (s : State) (op : Byte → Byte → Flags → Byte × Flags) (n : Byte) : (withAlu op n s).a = (op s.a n s.flags).1 := rfl
@[simp] theorem withAlu_b (s : State) (op : Byte → Byte → Flags → Byte × Flags) (n : Byte) : (withAlu op n s).b = s.b := rfl
@[simp] theorem withAlu_c (s : State) (op : Byte → Byte → Flags → Byte × Flags) (n : Byte) : (withAlu op n s).c = s.c := rfl
@[simp] theorem withAlu_d (s : State) (op : Byte → Byte → Flags → Byte × Flags) (n : Byte) : (withAlu op n s).d = s.d := rfl
@[simp] theorem withAlu_e (s : State) (op : Byte → Byte → Flags → Byte × Flags) (n : Byte) : (withAlu op n s).e = s.e := rfl
@[simp] theorem withAlu_h (s : State) (op : Byte → Byte → Flags → Byte × Flags) (n : Byte) : (withAlu op n s).h = s.h := rfl
@[simp] theorem withAlu_l (s : State) (op : Byte → Byte → Flags → Byte × Flags) (n : Byte) : (withAlu op n s).l = s.l := rfl
@[simp] theorem withAlu_flags (s : State) (op : Byte → Byte → Flags → Byte × Flags) (n : Byte) : (withAlu op n s).flags = (op s.a n s.flags).2 := rfl
@[simp] theorem withAlu_sp (s : State) (op : Byte → Byte → Flags → Byte × Flags) (n : Byte) : (withAlu op n s).sp = s.sp := rfl
@[simp] theorem withAlu_pc (s : State) (op : Byte → Byte → Flags → Byte × Flags) (n : Byte) : (withAlu op n s).pc = s.pc := rfl
@[simp] theorem withAlu_mem (s : State) (op : Byte → Byte → Flags → Byte × Flags) (n : Byte) : (withAlu op n s).mem = s.mem := rfl
@[simp] theorem withAlu_cfg (s : State) (op : Byte → Byte → Flags → Byte × Flags) (n : Byte) : (withAlu op n s).cfg = s.cfg := rfl
@[simp] theorem withAlu_report (s : State) (op : Byte → Byte → Flags → Byte × Flags) (n : Byte) : (withAlu op n s).report = s.report := rfl

/-! A register write leaves every field that is no register -/

@[simp] theorem setReg_flags (s : State) (r : Reg) (v : Byte) : (s.setReg r v).flags = s.flags := by
  cases r <;> rfl
@[simp] theorem setReg_sp (s : State) (r : Reg) (v : Byte) : (s.setReg r v).sp = s.sp := by
  cases r <;> rfl
@[simp] theorem setReg_pc (s : State) (r : Reg) (v : Byte) : (s.setReg r v).pc = s.pc := by
  cases r <;> rfl
@[simp] theorem setReg_mem (s : State) (r : Reg) (v : Byte) : (s.setReg r v).mem = s.mem := by
  cases r <;> rfl
@[simp] theorem setReg_cfg (s : State) (r : Reg) (v : Byte) : (s.setReg r v).cfg = s.cfg := by
  cases r <;> rfl
@[simp] theorem setReg_report (s : State) (r : Reg) (v : Byte) : (s.setReg r v).report = s.report := by
  cases r <;> rfl

/-- Reading back the register written. -/
@[simp] theorem reg_setReg_same (s : State) (r : Reg) (v : Byte) : (s.setReg r v).reg r = v := by
  cases r <;> rfl

/-- Every other register keeps its value: each is independent storage (rule R21). -/
theorem reg_setReg_other (s : State) (r q : Reg) (v : Byte) (h : q ≠ r) : (s.setReg r v).reg q = s.reg q := by
  cases r <;> cases q <;> first | rfl | exact absurd rfl h

/-- Two states with the same eight registers' storage, pointers, memory, parameters and report are equal. -/
theorem state_ext (s t : State) (hr : ∀ r, s.reg r = t.reg r) (hf : s.flags = t.flags) (hsp : s.sp = t.sp)
    (hpc : s.pc = t.pc) (hm : s.mem = t.mem) (hc : s.cfg = t.cfg) (hk : s.report = t.report) : s = t := by
  cases s; cases t
  have ha := hr .a; have hb := hr .b; have hcc := hr .c; have hd := hr .d
  have he := hr .e; have hh := hr .h; have hl := hr .l
  simp_all [State.reg]

end Sys2Proof.Laws
end

