-- ==== Sys2Proof/Laws/Ops.lean ====
section
/-! SUPPORT. One lemma per shared operation, saying once what it can do; the inversion of `exec`, `fetch` and `step`. -/

namespace Sys2Proof.Laws

open Sys2Proof.Machine Sys2Proof.Safety

/-! Byte order -/

theorem joinBytes_toNat (hi lo : Byte) : (joinBytes hi lo).toNat = 256 * hi.toNat + lo.toNat := by
  have h1 := hi.isLt
  have h2 := lo.isLt
  have hx : joinBytes hi lo = hi ++ lo := by
    apply BitVec.eq_of_getLsbD_eq
    intro i hi'
    simp only [joinBytes, BitVec.getLsbD_or, BitVec.getLsbD_shiftLeft, BitVec.getLsbD_setWidth, BitVec.getLsbD_append]
    by_cases h : i < 8
    · simp [h, hi']
    · have : i - 8 < 16 := by omega
      simp [h, hi', this]
      intro hc
      exact absurd (BitVec.lt_of_getLsbD hc) (by omega)
  rw [hx, BitVec.toNat_append, Nat.shiftLeft_eq, Nat.mul_comm]
  rw [← Nat.two_pow_add_eq_or_of_lt h2]

theorem hiByte_toNat (v : Word) : (hiByte v).toNat = v.toNat / 256 := by
  have := v.isLt
  simp [hiByte, BitVec.toNat_setWidth, BitVec.toNat_ushiftRight, Nat.shiftRight_eq_div_pow]
  omega

theorem loByte_toNat (v : Word) : (loByte v).toNat = v.toNat % 256 := by
  simp [loByte, BitVec.toNat_setWidth]

@[simp] theorem hiByte_joinBytes (hi lo : Byte) : hiByte (joinBytes hi lo) = hi := by
  apply BitVec.eq_of_toNat_eq
  have := lo.isLt
  rw [hiByte_toNat, joinBytes_toNat]
  omega

@[simp] theorem loByte_joinBytes (hi lo : Byte) : loByte (joinBytes hi lo) = lo := by
  apply BitVec.eq_of_toNat_eq
  have := lo.isLt
  rw [loByte_toNat, joinBytes_toNat]
  omega

@[simp] theorem joinBytes_hiByte_loByte (v : Word) : joinBytes (hiByte v) (loByte v) = v := by
  apply BitVec.eq_of_toNat_eq
  rw [joinBytes_toNat, hiByte_toNat, loByte_toNat]
  omega

/-! Outcomes -/

@[simp] theorem orRaise_ok {α : Type} (v : α) (k : α → Host.Outcome State Fault Refusal) : orRaise (.ok v) k = k v := rfl

@[simp] theorem orRaise_error {α : Type} (f : Fault) (k : α → Host.Outcome State Fault Refusal) :
    orRaise (.error f) k = .fault f := rfl

/-- If `orRaise` answers a next state, the operation gave a value. -/
theorem orRaise_next {α : Type} {x : Except Fault α} {k : α → Host.Outcome State Fault Refusal} {t : State}
    (h : orRaise x k = .next t) : ∃ v, x = .ok v ∧ k v = .next t := by
  cases x with
  | ok v => exact ⟨v, rfl, h⟩
  | error f => cases h

/-- If `orRaise` answers a fault, either the operation raised it or its continuation did. -/
theorem orRaise_fault {α : Type} {x : Except Fault α} {k : α → Host.Outcome State Fault Refusal} {f : Fault}
    (h : orRaise x k = .fault f) : x = .error f ∨ ∃ v, x = .ok v ∧ k v = .fault f := by
  cases x with
  | ok v => exact .inr ⟨v, rfl, h⟩
  | error g => cases h; exact .inl rfl

/-- An outcome that is no refusal answers a next state or a fault. -/
theorem orRaise_refused {α : Type} {x : Except Fault α} {k : α → Host.Outcome State Fault Refusal} {r : Refusal}
    (h : orRaise x k = .refused r) : ∃ v, x = .ok v ∧ k v = .refused r := by
  cases x with
  | ok v => exact ⟨v, rfl, h⟩
  | error g => cases h

/-! The bus at a 16-bit address, which is always in range (rule R48) -/

@[simp] theorem busRead_word (m : Memory) (addr : Word) : busRead m addr.toNat = .ok (m.read addr.toNat) := by
  have := addr.isLt
  simp [busRead, show addr.toNat ≤ 0xFFFF by omega]

@[simp] theorem busWrite_word (m : Memory) (addr : Word) (v : Byte) :
    busWrite m addr.toNat v = .ok (m.write addr.toNat v) := by
  have := addr.isLt
  simp [busWrite, show addr.toNat ≤ 0xFFFF by omega]

@[simp] theorem readIndHl_eq (s : State) : readIndHl s = .ok (s.byteAt s.hl) := by
  simp [readIndHl, State.byteAt]

@[simp] theorem writeIndHl_eq (v : Byte) (s : State) :
    writeIndHl v s = .ok { s with mem := s.mem.write s.hl.toNat v } := by
  simp [writeIndHl, Except.map]

/-- What a store changes, said through the model's read of one byte. -/
theorem storesByte_write (s : State) (addr : Word) (v : Byte) :
    StoresByte addr v s { s with mem := s.mem.write addr.toNat v } := by
  constructor
  · simp [State.byteAt, read_write]
  · intro x hx
    have : x.toNat ≠ addr.toNat := fun h => hx (BitVec.eq_of_toNat_eq h)
    simp [State.byteAt, read_write, this]

/-! Address arithmetic (rule R56) -/

/-- `Addr(base, k)`: the sum as a word, unless it passes 0xFFFF under `fault`. -/
theorem addrAfter_eq (mode : AddrWrap) (base : Word) (k : Nat) :
    addrAfter mode base k =
      if mode = .wrap ∨ base.toNat + k ≤ 0xFFFF then .ok (base + BitVec.ofNat 16 k)
      else .error (.outOfRangeAddress (base.toNat + k)) := by
  unfold addrAfter
  by_cases h : base.toNat + k ≤ 0xFFFF
  · simp only [h, if_true, or_true]
    congr 1
    apply BitVec.eq_of_toNat_eq
    simp
  · cases mode
    · simp only [h, if_false, true_or, if_true]
      congr 1
      apply BitVec.eq_of_toNat_eq
      simp
    · simp [h]

theorem addrAfter_room {s : State} {n : Nat} (h : HasRoom n s) :
    addrAfter s.cfg.addrWrap s.pc n = .ok (s.pc + BitVec.ofNat 16 n) := by
  rw [addrAfter_eq, if_pos h]

theorem addrAfter_noRoom {s : State} {n : Nat} (h : ¬ HasRoom n s) :
    addrAfter s.cfg.addrWrap s.pc n = .error (.outOfRangeAddress (s.pc.toNat + n)) := by
  rw [addrAfter_eq, if_neg h]

theorem not_hasRoom {n : Nat} {s : State} :
    ¬ HasRoom n s ↔ s.cfg.addrWrap = .fault ∧ 0xFFFF < s.pc.toNat + n := by
  unfold HasRoom
  cases h : s.cfg.addrWrap <;> simp

/-- Room for more bytes is room for fewer. -/
theorem hasRoom_mono {n k : Nat} {s : State} (hk : k ≤ n) (h : HasRoom n s) : HasRoom k s := by
  rcases h with h | h
  · exact .inl h
  · exact .inr (by omega)

/-! How a handler ends -/

theorem finish_room {n cycles : Nat} {s : State} (h : HasRoom n s) :
    finish n cycles s = .next { s with pc := s.pc + BitVec.ofNat 16 n, report := cycles } := by
  simp [finish, addrAfter_room h, jumpTo]

theorem finish_noRoom {n cycles : Nat} {s : State} (h : ¬ HasRoom n s) :
    finish n cycles s = .fault (.outOfRangeAddress (s.pc.toNat + n)) := by
  simp [finish, addrAfter_noRoom h]

/-- If `finish` answers a next state, there was room and only `pc` and the report changed. -/
theorem finish_next {n cycles : Nat} {s t : State} (h : finish n cycles s = .next t) :
    HasRoom n s ∧ t = { s with pc := s.pc + BitVec.ofNat 16 n, report := cycles } := by
  by_cases hr : HasRoom n s
  · rw [finish_room hr] at h
    cases h
    exact ⟨hr, rfl⟩
  · rw [finish_noRoom hr] at h
    cases h

/-! The tables -/

/-- The decoder's table and the opcode map of rules R80 and R81 agree on which opcodes are populated. -/
theorem primaryEntry_isSome (t : Table) (op : Byte) : (primaryEntry t op).isSome = t.populated.contains op := by
  revert op
  cases t <;> decide

theorem primaryEntry_none (t : Table) (op : Byte) : primaryEntry t op = none ↔ op ∉ t.populated := by
  have h := primaryEntry_isSome t op
  cases he : primaryEntry t op with
  | none => simpa [he] using h
  | some d => simpa [he] using h

/-- Under well-formed parameters the prefix byte is no populated opcode (rule R83). -/
theorem prefix_not_populated {p : Params} (h : p.wf = true) : p.prefixOpcode ∉ p.table.populated := by
  simpa [Params.wf] using h

theorem ne_prefix_of_populated {p : Params} {op : Byte} (h : p.wf = true) (hop : op ∈ p.table.populated) :
    op ≠ p.prefixOpcode :=
  fun he => prefix_not_populated h (he ▸ hop)

/-! Fetch -/

theorem readAfter_pc_room {s : State} {k : Nat} (h : HasRoom k s) :
    readAfter s s.pc k = .ok (s.byteAt (s.pc + BitVec.ofNat 16 k)) := by
  simp only [readAfter, addrAfter_room h, busRead_word, State.byteAt]

theorem readAfter_pc_noRoom {s : State} {k : Nat} (h : ¬ HasRoom k s) :
    readAfter s s.pc k = .error (.outOfRangeAddress (s.pc.toNat + k)) := by
  simp [readAfter, addrAfter_noRoom h]

/-! What FETCH and DECODE do (rule R102), case by case -/

theorem fetch_prefixed {s : State} (hp : s.byteAt s.pc = s.cfg.prefixOpcode) (h : HasRoom 1 s) :
    fetch s = .ok (.prefixed (s.byteAt (s.pc + 1))) := by
  have hp' : s.mem.read s.pc.toNat = s.cfg.prefixOpcode := hp
  simp only [fetch, busRead_word, hp', if_true, addrAfter_room h, extendedEntry]
  rfl

theorem fetch_prefixed_noRoom {s : State} (hp : s.byteAt s.pc = s.cfg.prefixOpcode) (h : ¬ HasRoom 1 s) :
    fetch s = .error (.outOfRangeAddress (s.pc.toNat + 1)) := by
  have hp' : s.mem.read s.pc.toNat = s.cfg.prefixOpcode := hp
  simp only [fetch, busRead_word, hp', if_true, addrAfter_noRoom h]

theorem fetch_empty {s : State} (hp : s.byteAt s.pc ≠ s.cfg.prefixOpcode)
    (hn : primaryEntry s.cfg.table (s.byteAt s.pc) = none) : fetch s = .ok (.emptyPrimary (s.byteAt s.pc)) := by
  have hp' : ¬ s.mem.read s.pc.toNat = s.cfg.prefixOpcode := hp
  have hn' : primaryEntry s.cfg.table (s.mem.read s.pc.toNat) = none := hn
  simp only [fetch, busRead_word, hp', if_false, hn']
  rfl

theorem fetch_populated {s : State} {d : Descriptor} (hp : s.byteAt s.pc ≠ s.cfg.prefixOpcode)
    (hd : primaryEntry s.cfg.table (s.byteAt s.pc) = some d) : fetch s = fetchOperands s s.pc d.handler := by
  have hp' : ¬ s.mem.read s.pc.toNat = s.cfg.prefixOpcode := hp
  have hd' : primaryEntry s.cfg.table (s.mem.read s.pc.toNat) = some d := hd
  simp only [fetch, busRead_word, hp', if_false, hd']

/-! The operands of a primary descriptor: read where there is room, and the first address past the top otherwise -/

theorem fetchOperands_implied (s : State) (base : Word) (i : Instr) : fetchOperands s base (.implied i) = .ok i := rfl

theorem fetchOperands_imm8 {s : State} {f : Byte → Instr} (h : HasRoom 1 s) :
    fetchOperands s s.pc (.imm8 f) = .ok (f (s.byteAt (s.pc + 1))) := by
  simp only [fetchOperands, readAfter_pc_room h]
  rfl

theorem fetchOperands_imm8_noRoom {s : State} {f : Byte → Instr} (h : ¬ HasRoom 1 s) :
    fetchOperands s s.pc (.imm8 f) = .error (.outOfRangeAddress 0x10000) := by
  have hlt := s.pc.isLt
  have := (not_hasRoom.mp h).2
  simp only [fetchOperands, readAfter_pc_noRoom h]
  congr 2
  omega

theorem fetchOperands_imm16 {s : State} {f : Word → Instr} (h : HasRoom 2 s) :
    fetchOperands s s.pc (.imm16 f) = .ok (f (joinBytes (s.byteAt (s.pc + 2)) (s.byteAt (s.pc + 1)))) := by
  simp only [fetchOperands, readAfter_pc_room h, readAfter_pc_room (hasRoom_mono (by omega : 1 ≤ 2) h)]
  rfl

theorem fetchOperands_imm16_noRoom {s : State} {f : Word → Instr} (h : ¬ HasRoom 2 s) :
    fetchOperands s s.pc (.imm16 f) = .error (.outOfRangeAddress 0x10000) := by
  have hlt := s.pc.isLt
  obtain ⟨hw, h2⟩ := not_hasRoom.mp h
  by_cases h1 : HasRoom 1 s
  · have h3 : s.pc.toNat + 1 ≤ 0xFFFF := by
      rcases h1 with hc | hc
      · rw [hw] at hc
        cases hc
      · exact hc
    simp only [fetchOperands, readAfter_pc_room h1, readAfter_pc_noRoom h]
    congr 2
    omega
  · have h3 := (not_hasRoom.mp h1).2
    simp only [fetchOperands, readAfter_pc_noRoom h1]
    congr 2
    omega

/-! The step -/

/-- A step that answers a next state fetched an instruction and executed it on the same state. -/
theorem step_next {s t : State} (h : step s = .next t) : ∃ i, fetch s = .ok i ∧ exec i s = .next t :=
  orRaise_next h

/-- A step at a populated opcode that is not the prefix: the operands, then the handler. -/
theorem step_populated {s : State} {d : Descriptor} (hp : s.byteAt s.pc ≠ s.cfg.prefixOpcode)
    (hd : primaryEntry s.cfg.table (s.byteAt s.pc) = some d) :
    step s = orRaise (fetchOperands s s.pc d.handler) fun i => exec i s := by
  rw [step, fetch_populated hp hd]

/-- A step at an empty primary entry (rule R104). -/
theorem step_empty {s : State} (hp : s.byteAt s.pc ≠ s.cfg.prefixOpcode)
    (hn : primaryEntry s.cfg.table (s.byteAt s.pc) = none) :
    step s = .fault (.unimplementedOpcode .primary (s.byteAt s.pc) s.pc) := by
  rw [step, fetch_empty hp hn]
  rfl

/-- A step at the prefix byte (rule R105). -/
theorem step_prefixed {s : State} (hp : s.byteAt s.pc = s.cfg.prefixOpcode) (h : HasRoom 1 s) :
    step s = .fault (.unimplementedOpcode .extended (s.byteAt (s.pc + 1)) s.pc) := by
  rw [step, fetch_prefixed hp h]
  rfl

theorem step_prefixed_noRoom {s : State} (hp : s.byteAt s.pc = s.cfg.prefixOpcode) (h : ¬ HasRoom 1 s) :
    step s = .fault (.outOfRangeAddress 0x10000) := by
  have hlt := s.pc.isLt
  have := (not_hasRoom.mp h).2
  rw [step, fetch_prefixed_noRoom hp h, orRaise_error, show s.pc.toNat + 1 = 0x10000 by omega]

/-- If a step answers a next state, it dispatched on a populated opcode that is not the prefix. -/
theorem step_next_populated {s t : State} (h : step s = .next t) :
    s.byteAt s.pc ≠ s.cfg.prefixOpcode ∧ ∃ d, primaryEntry s.cfg.table (s.byteAt s.pc) = some d ∧
      ∃ i, fetchOperands s s.pc d.handler = .ok i ∧ exec i s = .next t := by
  have hp : s.byteAt s.pc ≠ s.cfg.prefixOpcode := by
    intro hp
    by_cases hr : HasRoom 1 s
    · rw [step_prefixed hp hr] at h
      cases h
    · rw [step_prefixed_noRoom hp hr] at h
      cases h
  refine ⟨hp, ?_⟩
  cases hd : primaryEntry s.cfg.table (s.byteAt s.pc) with
  | none =>
    rw [step_empty hp hd] at h
    cases h
  | some d =>
    rw [step_populated hp hd] at h
    exact ⟨d, rfl, orRaise_next h⟩

/-! A step at a profile opcode -/

theorem joinBytes_eq_ofNat (hi lo : Byte) : joinBytes hi lo = BitVec.ofNat 16 (256 * hi.toNat + lo.toNat) := by
  apply BitVec.eq_of_toNat_eq
  have := hi.isLt
  have := lo.isLt
  rw [joinBytes_toNat, BitVec.toNat_ofNat]
  omega

theorem step_profile {op : Byte} {s : State} {d : Descriptor} (h : FetchesProfile op s)
    (hd : primaryEntry .sm83gk op = some d) :
    step s = orRaise (fetchOperands s s.pc d.handler) fun i => exec i s := by
  obtain ⟨hw, ht, hop⟩ := h
  have hpop : op ∈ s.cfg.table.populated := by
    by_contra hc
    rw [← primaryEntry_none, ht, hd] at hc
    cases hc
  refine step_populated ?_ (by rw [ht, hop, hd])
  rw [hop]
  exact ne_prefix_of_populated hw hpop

theorem profileRow_of_entry {op : Byte} {d : Descriptor} (hd : primaryEntry .sm83gk op = some d) :
    ProfileRow op d.handler d.baseCycles d.notTakenCycles := by
  refine ⟨⟨d.mnemonic, hd⟩, fun s h hr => ?_⟩
  rw [step_profile h hd]
  cases hh : d.handler <;> rw [hh] at hr
  · rfl
  · rw [fetchOperands_imm8 hr, orRaise_ok]
    rfl
  · rw [fetchOperands_imm16 hr, orRaise_ok, joinBytes_eq_ofNat]
    rfl

end Sys2Proof.Laws
end

