-- ==== Sys2Proof/Laws/Exec.lean ====
section
/-! SUPPORT. What `exec` can do, said once for all instructions, and what `step` can do by the row it dispatches on. -/

namespace Sys2Proof.Laws

open Sys2Proof.Machine Sys2Proof.Safety

/-! The shapes of the meanings, with their outcomes -/

theorem aluReg_eq (op : Byte → Byte → Flags → Byte × Flags) (r : Reg) (s : State) :
    aluReg op r s = finish 1 4 { s with a := (op s.a (s.reg r) s.flags).1, flags := (op s.a (s.reg r) s.flags).2 } := rfl

theorem aluIndHl_eq (op : Byte → Byte → Flags → Byte × Flags) (s : State) :
    aluIndHl op s = finish 1 8
      { s with a := (op s.a (s.byteAt s.hl) s.flags).1, flags := (op s.a (s.byteAt s.hl) s.flags).2 } := by
  simp [aluIndHl, withAlu, State.reg]

theorem aluImm_eq (op : Byte → Byte → Flags → Byte × Flags) (d8 : Byte) (s : State) :
    aluImm op d8 s = finish 2 8 { s with a := (op s.a d8 s.flags).1, flags := (op s.a d8 s.flags).2 } := rfl

theorem jumpRelIf_room {cc : Cond} {e8 : Byte} {s : State} (h : HasRoom 2 s) :
    jumpRelIf cc e8 s =
      if condHolds cc s.flags then jumpTo (relTarget (s.pc + 2) e8) 12 s else jumpTo (s.pc + 2) 8 s := by
  simp [jumpRelIf, addrAfter_room h]

theorem jumpRelIf_noRoom {cc : Cond} {e8 : Byte} {s : State} (h : ¬ HasRoom 2 s) :
    jumpRelIf cc e8 s = .fault (.outOfRangeAddress (s.pc.toNat + 2)) := by
  simp [jumpRelIf, addrAfter_noRoom h]

/-- The target of a relative jump as one signed sum (rule R152). -/
theorem relTarget_eq (pc : Word) (e8 : Byte) :
    relTarget (pc + 2) e8 = BitVec.ofInt 16 ((pc.toNat : Int) + 2 + e8.toInt) := by
  have hpc : BitVec.ofInt 16 (pc.toNat : Int) = pc := by simp
  rw [BitVec.ofInt_add, BitVec.ofInt_add, hpc]
  rfl

/-- If a handler's tail answers a next state, `cfg` is that of the state it was given, and so is every field but `pc` and the
report. -/
theorem finish_frame {n cycles : Nat} {s t : State} (h : finish n cycles s = .next t) :
    t = { s with pc := t.pc, report := t.report } := by
  obtain ⟨-, rfl⟩ := finish_next h
  rfl

theorem jumpTo_next {target : Word} {cycles : Nat} {s t : State} (h : jumpTo target cycles s = .next t) :
    t = { s with pc := target, report := cycles } := by
  cases h
  rfl

theorem jumpAbsIf_frame {cc : Cond} {a16 : Word} {s t : State} (h : jumpAbsIf cc a16 s = .next t) :
    t = { s with pc := t.pc, report := t.report } := by
  unfold jumpAbsIf at h
  split at h
  · rw [jumpTo_next h]
  · exact finish_frame h

theorem jumpRelIf_frame {cc : Cond} {e8 : Byte} {s t : State} (h : jumpRelIf cc e8 s = .next t) :
    t = { s with pc := t.pc, report := t.report } := by
  obtain ⟨next, -, h⟩ := orRaise_next h
  split at h <;> rw [jumpTo_next h]

theorem jrE8_frame {e8 : Byte} {s t : State} (h : execJrE8 e8 s = .next t) :
    t = { s with pc := t.pc, report := t.report } := by
  obtain ⟨next, -, h⟩ := orRaise_next h
  rw [jumpTo_next h]

/-! No handler refuses -/

theorem finish_not_refused (n cycles : Nat) (s : State) (r : Refusal) : finish n cycles s ≠ .refused r := by
  intro h
  obtain ⟨v, -, h⟩ := orRaise_refused h
  cases h

theorem jumpAbsIf_not_refused (cc : Cond) (a16 : Word) (s : State) (r : Refusal) : jumpAbsIf cc a16 s ≠ .refused r := by
  intro h
  unfold jumpAbsIf at h
  split at h
  · cases h
  · exact finish_not_refused _ _ _ _ h

theorem jumpRelIf_not_refused (cc : Cond) (e8 : Byte) (s : State) (r : Refusal) : jumpRelIf cc e8 s ≠ .refused r := by
  intro h
  obtain ⟨next, -, h⟩ := orRaise_refused h
  split at h <;> cases h

theorem jrE8_not_refused (e8 : Byte) (s : State) (r : Refusal) : execJrE8 e8 s ≠ .refused r := by
  intro h
  obtain ⟨next, -, h⟩ := orRaise_refused h
  cases h

/-- Every instruction has a meaning: `exec` refuses nothing. -/
theorem exec_not_refused (i : Instr) (s : State) (r : Refusal) : exec i s ≠ .refused r := by
  cases i <;>
    simp only [exec, execLdSpD16, execNop, execLdBcD16, execLdDeD16, execLdHlD16, execLdBD8, execLdCD8, execLdDD8, execLdED8,
      execLdHD8, execLdLD8, execLdAD8, execLdIndHlD8, execLdAIndHl, execLdIndHlA, execAddAB, execAddAC, execAddAD,
      execAddAE, execAddAH, execAddAL, execAddAIndHl, execAddAA, execAdcAB, execAdcAC, execAdcAD, execAdcAE,
      execAdcAH, execAdcAL, execAdcAIndHl, execAdcAA, execSubB, execSubC, execSubD, execSubE, execSubH, execSubL,
      execSubIndHl, execSubA, execAddAD8, execAdcAD8, execSubD8, execJpA16, execJpNzA16, execJpZA16, execJpNcA16,
      execJpCA16, execJrE8, execJrNzE8, execJrZE8, execJrNcE8, execJrCE8, execPrefixed, execEmptyPrimary,
      aluReg_eq, aluIndHl_eq, aluImm_eq, readIndHl_eq, writeIndHl_eq, orRaise_ok] <;>
    first
    | exact finish_not_refused _ _ _ _
    | exact jumpAbsIf_not_refused _ _ _ _
    | exact jumpRelIf_not_refused _ _ _ _
    | exact jrE8_not_refused _ _ _
    | (intro h; cases h)

/-- Which part of the state an instruction may write besides `pc` and the report: said once for all of them. -/
theorem exec_next {i : Instr} {s t : State} (h : exec i s = .next t) :
    (∃ v, i = .ldSpD16 v ∧ t = { s with sp := v, pc := t.pc, report := t.report }) ∨
    (∃ v, (i = .ldIndHlD8 v ∨ (i = .ldIndHlA ∧ v = s.a)) ∧
      t = { s with mem := s.mem.write s.hl.toNat v, pc := t.pc, report := t.report }) ∨
    (∃ op n, (op = aluAdd ∨ op = aluAdc ∨ op = aluSub) ∧
      t = { s with a := (op s.a n s.flags).1, flags := (op s.a n s.flags).2, pc := t.pc, report := t.report }) ∨
    (∃ q : State, q = { s with a := q.a, b := q.b, c := q.c, d := q.d, e := q.e, h := q.h, l := q.l } ∧
      t = { q with pc := t.pc, report := t.report }) := by
  cases i
  case ldSpD16 v => exact .inl ⟨v, rfl, finish_frame h⟩
  case ldIndHlD8 v =>
    simp only [exec, execLdIndHlD8, writeIndHl_eq, orRaise_ok] at h
    exact .inr (.inl ⟨v, .inl rfl, finish_frame h⟩)
  case ldIndHlA =>
    simp only [exec, execLdIndHlA, writeIndHl_eq, orRaise_ok] at h
    exact .inr (.inl ⟨s.a, .inr ⟨rfl, rfl⟩, finish_frame h⟩)
  all_goals
    simp only [exec, execNop, execLdBcD16, execLdDeD16, execLdHlD16, execLdBD8, execLdCD8, execLdDD8, execLdED8,
      execLdHD8, execLdLD8, execLdAD8, execLdAIndHl, execAddAB, execAddAC, execAddAD,
      execAddAE, execAddAH, execAddAL, execAddAIndHl, execAddAA, execAdcAB, execAdcAC, execAdcAD, execAdcAE,
      execAdcAH, execAdcAL, execAdcAIndHl, execAdcAA, execSubB, execSubC, execSubD, execSubE, execSubH, execSubL,
      execSubIndHl, execSubA, execAddAD8, execAdcAD8, execSubD8, execJpA16, execJpNzA16, execJpZA16, execJpNcA16,
      execJpCA16, execJrE8, execJrNzE8, execJrZE8, execJrNcE8, execJrCE8, execPrefixed, execEmptyPrimary,
      aluReg_eq, aluIndHl_eq, aluImm_eq, readIndHl_eq, orRaise_ok] at h
    first
    | exact .inr (.inr (.inl ⟨aluAdd, _, .inl rfl, finish_frame h⟩))
    | exact .inr (.inr (.inl ⟨aluAdc, _, .inr (.inl rfl), finish_frame h⟩))
    | exact .inr (.inr (.inl ⟨aluSub, _, .inr (.inr rfl), finish_frame h⟩))
    | exact .inr (.inr (.inr ⟨_, rfl, finish_frame h⟩))
    | exact .inr (.inr (.inr ⟨s, rfl, jumpAbsIf_frame h⟩))
    | exact .inr (.inr (.inr ⟨s, rfl, jumpRelIf_frame h⟩))
    | exact .inr (.inr (.inr ⟨s, rfl, jrE8_frame h⟩))
    | exact .inr (.inr (.inr ⟨s, rfl, by rw [jumpTo_next h]⟩))
    | cases h

end Sys2Proof.Laws
end

