-- ==== Sys2Proof/Laws/Launch.lean ====
section
/-! SUPPORT. What an image load and a launch can do, one lemma per case. -/

namespace Sys2Proof.Laws

open Sys2Proof.Machine

theorem loadImage_fits {bytes : List Byte} {origin : Word} (m : Memory) (h : origin.toNat + bytes.length ≤ 0x10000) :
    loadImage m bytes origin = .ok (m.writeBytes origin.toNat bytes) := by
  rw [loadImage, if_neg (by omega)]

theorem loadImage_too_long {bytes : List Byte} {origin : Word} (m : Memory) (h : 0x10000 < origin.toNat + bytes.length) :
    loadImage m bytes origin = .error (.outOfRangeAddress (0x10000 + Config.loadFailExcess origin.toNat bytes.length)) := by
  rw [loadImage, if_pos (by omega)]

/-- The core a launch starts from, before its images. -/
theorem boot_eq (p : Params) (mem0 : Memory) (init : Option InitialState) (images : List Image) :
    boot p mem0 init images = loadImages (init.elim (State.create p mem0) (State.inject p mem0)) images := by
  cases init <;> rfl

theorem loadImages_fits {bytes : List Byte} {origin : Word} (s : State) (rest : List Image)
    (h : origin.toNat + bytes.length ≤ 0x10000) :
    loadImages s ({ source := .read bytes, origin := origin } :: rest) =
      loadImages { s with mem := s.mem.writeBytes origin.toNat bytes } rest := by
  simp only [loadImages, State.loadImage, loadImage_fits s.mem h, Except.map]

theorem loadImages_too_long {bytes : List Byte} {origin : Word} (s : State) (rest : List Image)
    (h : 0x10000 < origin.toNat + bytes.length) :
    loadImages s ({ source := .read bytes, origin := origin } :: rest) =
      .error (.outOfRangeAddress (0x10000 + Config.loadFailExcess origin.toNat bytes.length)) := by
  simp only [loadImages, State.loadImage, loadImage_too_long s.mem h, Except.map]

theorem loadImages_failed (s : State) (why : ReadFailure) (origin : Word) (rest : List Image) :
    loadImages s ({ source := .failed why, origin := origin } :: rest) = .error (.imageReadError why) := rfl

end Sys2Proof.Laws
end

