-- ==== Sys2Proof/Laws/PerInstr.lean ====
section
/-! SUPPORT. The per-instruction families of LAWS.json. -/

namespace Sys2Proof.Laws

/-- Family EncodeLength: an instruction is encoded in exactly as many bytes as its format has (rules R70, R71). -/
def EncodeLength.Statement (i : Instr) : Prop :=
  ∀ p : Params, (encode p i).length = i.length

theorem EncodeLength.ldSpD16 (d16 : Word) : EncodeLength.Statement (.ldSpD16 d16) := fun _ => rfl
theorem EncodeLength.nop : EncodeLength.Statement .nop := fun _ => rfl
theorem EncodeLength.ldBcD16 (d16 : Word) : EncodeLength.Statement (.ldBcD16 d16) := fun _ => rfl
theorem EncodeLength.ldDeD16 (d16 : Word) : EncodeLength.Statement (.ldDeD16 d16) := fun _ => rfl
theorem EncodeLength.ldHlD16 (d16 : Word) : EncodeLength.Statement (.ldHlD16 d16) := fun _ => rfl
theorem EncodeLength.ldBD8 (d8 : Byte) : EncodeLength.Statement (.ldBD8 d8) := fun _ => rfl
theorem EncodeLength.ldCD8 (d8 : Byte) : EncodeLength.Statement (.ldCD8 d8) := fun _ => rfl
theorem EncodeLength.ldDD8 (d8 : Byte) : EncodeLength.Statement (.ldDD8 d8) := fun _ => rfl
theorem EncodeLength.ldED8 (d8 : Byte) : EncodeLength.Statement (.ldED8 d8) := fun _ => rfl
theorem EncodeLength.ldHD8 (d8 : Byte) : EncodeLength.Statement (.ldHD8 d8) := fun _ => rfl
theorem EncodeLength.ldLD8 (d8 : Byte) : EncodeLength.Statement (.ldLD8 d8) := fun _ => rfl
theorem EncodeLength.ldAD8 (d8 : Byte) : EncodeLength.Statement (.ldAD8 d8) := fun _ => rfl
theorem EncodeLength.ldIndHlD8 (d8 : Byte) : EncodeLength.Statement (.ldIndHlD8 d8) := fun _ => rfl
theorem EncodeLength.ldAIndHl : EncodeLength.Statement .ldAIndHl := fun _ => rfl
theorem EncodeLength.ldIndHlA : EncodeLength.Statement .ldIndHlA := fun _ => rfl
theorem EncodeLength.addAB : EncodeLength.Statement .addAB := fun _ => rfl
theorem EncodeLength.addAC : EncodeLength.Statement .addAC := fun _ => rfl
theorem EncodeLength.addAD : EncodeLength.Statement .addAD := fun _ => rfl
theorem EncodeLength.addAE : EncodeLength.Statement .addAE := fun _ => rfl
theorem EncodeLength.addAH : EncodeLength.Statement .addAH := fun _ => rfl
theorem EncodeLength.addAL : EncodeLength.Statement .addAL := fun _ => rfl
theorem EncodeLength.addAIndHl : EncodeLength.Statement .addAIndHl := fun _ => rfl
theorem EncodeLength.addAA : EncodeLength.Statement .addAA := fun _ => rfl
theorem EncodeLength.adcAB : EncodeLength.Statement .adcAB := fun _ => rfl
theorem EncodeLength.adcAC : EncodeLength.Statement .adcAC := fun _ => rfl
theorem EncodeLength.adcAD : EncodeLength.Statement .adcAD := fun _ => rfl
theorem EncodeLength.adcAE : EncodeLength.Statement .adcAE := fun _ => rfl
theorem EncodeLength.adcAH : EncodeLength.Statement .adcAH := fun _ => rfl
theorem EncodeLength.adcAL : EncodeLength.Statement .adcAL := fun _ => rfl
theorem EncodeLength.adcAIndHl : EncodeLength.Statement .adcAIndHl := fun _ => rfl
theorem EncodeLength.adcAA : EncodeLength.Statement .adcAA := fun _ => rfl
theorem EncodeLength.subB : EncodeLength.Statement .subB := fun _ => rfl
theorem EncodeLength.subC : EncodeLength.Statement .subC := fun _ => rfl
theorem EncodeLength.subD : EncodeLength.Statement .subD := fun _ => rfl
theorem EncodeLength.subE : EncodeLength.Statement .subE := fun _ => rfl
theorem EncodeLength.subH : EncodeLength.Statement .subH := fun _ => rfl
theorem EncodeLength.subL : EncodeLength.Statement .subL := fun _ => rfl
theorem EncodeLength.subIndHl : EncodeLength.Statement .subIndHl := fun _ => rfl
theorem EncodeLength.subA : EncodeLength.Statement .subA := fun _ => rfl
theorem EncodeLength.addAD8 (d8 : Byte) : EncodeLength.Statement (.addAD8 d8) := fun _ => rfl
theorem EncodeLength.adcAD8 (d8 : Byte) : EncodeLength.Statement (.adcAD8 d8) := fun _ => rfl
theorem EncodeLength.subD8 (d8 : Byte) : EncodeLength.Statement (.subD8 d8) := fun _ => rfl
theorem EncodeLength.jpA16 (a16 : Word) : EncodeLength.Statement (.jpA16 a16) := fun _ => rfl
theorem EncodeLength.jpNzA16 (a16 : Word) : EncodeLength.Statement (.jpNzA16 a16) := fun _ => rfl
theorem EncodeLength.jpZA16 (a16 : Word) : EncodeLength.Statement (.jpZA16 a16) := fun _ => rfl
theorem EncodeLength.jpNcA16 (a16 : Word) : EncodeLength.Statement (.jpNcA16 a16) := fun _ => rfl
theorem EncodeLength.jpCA16 (a16 : Word) : EncodeLength.Statement (.jpCA16 a16) := fun _ => rfl
theorem EncodeLength.jrE8 (e8 : Byte) : EncodeLength.Statement (.jrE8 e8) := fun _ => rfl
theorem EncodeLength.jrNzE8 (e8 : Byte) : EncodeLength.Statement (.jrNzE8 e8) := fun _ => rfl
theorem EncodeLength.jrZE8 (e8 : Byte) : EncodeLength.Statement (.jrZE8 e8) := fun _ => rfl
theorem EncodeLength.jrNcE8 (e8 : Byte) : EncodeLength.Statement (.jrNcE8 e8) := fun _ => rfl
theorem EncodeLength.jrCE8 (e8 : Byte) : EncodeLength.Statement (.jrCE8 e8) := fun _ => rfl
theorem EncodeLength.prefixed (xx : Byte) : EncodeLength.Statement (.prefixed xx) := fun _ => rfl
theorem EncodeLength.emptyPrimary (op : Byte) : EncodeLength.Statement (.emptyPrimary op) := fun _ => rfl

end Sys2Proof.Laws
end

