-- ==== Sys2Proof/Tests/Slice0.lean ====
section
/-! SUPPORT. Tests on single steps, decodings and operations, with expected results from the encodings and the vectors of
spec/95_test_vectors.md, and one witness for the hypotheses of each statement. -/

namespace Sys2Proof.Tests

open Sys2Proof Sys2Proof.Machine Sys2Proof.Safety

/-! Helpers -/

/-- A created core with bytes placed at `pc`. -/
def atPc (p : Params) (pc : Word) (bytes : List Byte) : State :=
  placeBytes pc 0 bytes { State.create p [] with pc := pc }

/-- Under GOBOY-DOC with the reference prefix byte. -/
def atDoc (w : AddrWrap) (pc : Word) (bytes : List Byte) : State :=
  atPc { table := .gobyDoc, prefixOpcode := 0xCB, addrWrap := w } pc bytes

/-- Under SM83-GK with the reference prefix byte. -/
def atGk (w : AddrWrap) (pc : Word) (bytes : List Byte) : State :=
  atPc { table := .sm83gk, prefixOpcode := 0xCB, addrWrap := w } pc bytes

/-- One byte of memory set. -/
def poke (s : State) (addr : Nat) (v : Byte) : State := { s with mem := s.mem.write addr v }

def isNext (o : Host.Outcome State Fault Refusal) (t : State) : Bool :=
  match o with
  | .next t' => t' == t
  | .fault _ => false
  | .refused _ => false

def isFault (o : Host.Outcome State Fault Refusal) (f : Fault) : Bool :=
  match o with
  | .next _ => false
  | .fault f' => f' == f
  | .refused _ => false

def nextIs (s t : State) : Bool := isNext (step s) t

def faultIs (s : State) (f : Fault) : Bool := isFault (step s) f

def completes (o : Host.Outcome State Fault Refusal) : Bool :=
  match o with
  | .next _ => true
  | .fault _ => false
  | .refused _ => false

theorem next_of_isNext {o : Host.Outcome State Fault Refusal} {t : State} (h : isNext o t = true) : o = .next t := by
  cases o <;> simp_all [isNext]

theorem fault_of_isFault {o : Host.Outcome State Fault Refusal} {f : Fault} (h : isFault o f = true) : o = .fault f := by
  cases o <;> simp_all [isFault]

theorem next_of_completes {o : Host.Outcome State Fault Refusal} (h : completes o = true) : ∃ t, o = .next t := by
  cases o <;> simp_all [completes]

/-! Well-formedness: each check refuses an ill-formed term -/

theorem smoke_params :
    Params.wf { table := .gobyDoc, prefixOpcode := 0x31, addrWrap := .wrap } = false ∧
    Params.wf { table := .sm83gk, prefixOpcode := 0x80, addrWrap := .wrap } = false ∧
    Params.wf { table := .gobyDoc, prefixOpcode := 0x80, addrWrap := .wrap } = true ∧
    Config.params.wf = true := by decide

theorem smoke_profile_instruction_needs_the_profile :
    Instr.wf { Config.params with table := .gobyDoc } (.ldBD8 0x05) = false ∧
    Instr.wf { Config.params with table := .gobyDoc } .addAB = false ∧
    Instr.wf Config.params (.ldBD8 0x05) = true ∧
    Instr.wf { Config.params with table := .gobyDoc } (.ldSpD16 0x2000) = true := by decide

theorem smoke_empty_entry_is_not_populated_and_not_the_prefix :
    Instr.wf Config.params (.emptyPrimary 0x31) = false ∧
    Instr.wf Config.params (.emptyPrimary 0xCB) = false ∧
    Instr.wf Config.params (.emptyPrimary 0x76) = true ∧
    Instr.wf { Config.params with table := .gobyDoc } (.emptyPrimary 0x00) = true := by decide

theorem smoke_memory_form :
    Memory.wf [(1, 0x05), (1, 0x06)] = false ∧
    Memory.wf [(2, 0x05), (1, 0x06)] = false ∧
    Memory.wf [(1, 0x00)] = false ∧
    Memory.wf [(0x10000, 0x05)] = false ∧
    Memory.wf [(0, 0x05), (0xFFFF, 0x06)] = true := by decide

/-! Reset and the placing of a table word -/

theorem test_reset : State.reset.snapshot =
    { a := 0, f := 0, b := 0, c := 0, d := 0, e := 0, h := 0, l := 0, sp := 0, pc := 0
      zero := false, subtract := false, halfCarry := false, carry := false } := by decide

/-- 42_load_sp.md's worked bytes 31 00 20, placed as a table word. -/
theorem test_withFetchWord : nextIs (State.reset.withFetchWord 24 0x200031)
    ({ State.reset.withFetchWord 24 0x200031 with sp := 0x2000, pc := 0x0003, report := 12 }) = true := by decide

/-! Flags, views and the ALU on fixed values -/

theorem test_pack : Flags.pack { z := true, n := false, h := true, c := false } = 0xA0 ∧
    Flags.pack { z := false, n := true, h := false, c := true } = 0x50 ∧
    (Flags.unpack 0x9F).pack = 0x90 := by decide

theorem test_views : (State.reset.setBc 0x1234).b = 0x12 ∧ (State.reset.setBc 0x1234).c = 0x34 ∧
    (State.reset.setAf 0x12FF).f = 0xF0 ∧ (State.reset.setAf 0x12FF).af = 0x12F0 := by decide

/-! The image load at its boundary (rule R55) -/

theorem test_loadImage :
    loadImage [] [0x12, 0x34] 0xFFFE = .ok [(0xFFFE, 0x12), (0xFFFF, 0x34)] ∧
    loadImage [(5, 0x01)] [] 0xFFFF = .ok [(5, 0x01)] ∧
    (loadImage [] [0x12, 0x34] 0xFFFF).toOption = none := by
  refine ⟨by rfl, by rfl, by rfl⟩

/-! Decoding: each row's opcode byte written out from its encoding, operand bytes above it -/

theorem test_decode_ld_sp_and_pairs :
    decodeTableWord 24 0b10000001_00100011_00110001 = some (.ldSpD16 0x8123) ∧
    decodeTableWord 24 0b10000001_00100011_00000001 = some (.ldBcD16 0x8123) ∧
    decodeTableWord 24 0b10000001_00100011_00010001 = some (.ldDeD16 0x8123) ∧
    decodeTableWord 24 0b10000001_00100011_00100001 = some (.ldHlD16 0x8123) := by
  decide
theorem test_decode_ld_reg :
    decodeTableWord 16 0b10100101_00000110 = some (.ldBD8 0xA5) ∧
    decodeTableWord 16 0b10100101_00001110 = some (.ldCD8 0xA5) ∧
    decodeTableWord 16 0b10100101_00010110 = some (.ldDD8 0xA5) ∧
    decodeTableWord 16 0b10100101_00011110 = some (.ldED8 0xA5) ∧
    decodeTableWord 16 0b10100101_00100110 = some (.ldHD8 0xA5) ∧
    decodeTableWord 16 0b10100101_00101110 = some (.ldLD8 0xA5) ∧
    decodeTableWord 16 0b10100101_00111110 = some (.ldAD8 0xA5) := by
  decide
theorem test_decode_memory_and_nop :
    decodeTableWord 8 0b00000000 = some .nop ∧
    decodeTableWord 16 0b10100101_00110110 = some (.ldIndHlD8 0xA5) ∧
    decodeTableWord 8 0b01111110 = some .ldAIndHl ∧
    decodeTableWord 8 0b01110111 = some .ldIndHlA := by
  decide
theorem test_decode_add :
    decodeTableWord 8 0b10000000 = some .addAB ∧
    decodeTableWord 8 0b10000001 = some .addAC ∧
    decodeTableWord 8 0b10000010 = some .addAD ∧
    decodeTableWord 8 0b10000011 = some .addAE ∧
    decodeTableWord 8 0b10000100 = some .addAH ∧
    decodeTableWord 8 0b10000101 = some .addAL ∧
    decodeTableWord 8 0b10000110 = some .addAIndHl ∧
    decodeTableWord 8 0b10000111 = some .addAA ∧
    decodeTableWord 16 0b10100101_11000110 = some (.addAD8 0xA5) := by
  decide
theorem test_decode_adc :
    decodeTableWord 8 0b10001000 = some .adcAB ∧
    decodeTableWord 8 0b10001001 = some .adcAC ∧
    decodeTableWord 8 0b10001010 = some .adcAD ∧
    decodeTableWord 8 0b10001011 = some .adcAE ∧
    decodeTableWord 8 0b10001100 = some .adcAH ∧
    decodeTableWord 8 0b10001101 = some .adcAL ∧
    decodeTableWord 8 0b10001110 = some .adcAIndHl ∧
    decodeTableWord 8 0b10001111 = some .adcAA ∧
    decodeTableWord 16 0b10100101_11001110 = some (.adcAD8 0xA5) := by
  decide
theorem test_decode_sub :
    decodeTableWord 8 0b10010000 = some .subB ∧
    decodeTableWord 8 0b10010001 = some .subC ∧
    decodeTableWord 8 0b10010010 = some .subD ∧
    decodeTableWord 8 0b10010011 = some .subE ∧
    decodeTableWord 8 0b10010100 = some .subH ∧
    decodeTableWord 8 0b10010101 = some .subL ∧
    decodeTableWord 8 0b10010110 = some .subIndHl ∧
    decodeTableWord 8 0b10010111 = some .subA ∧
    decodeTableWord 16 0b10100101_11010110 = some (.subD8 0xA5) := by
  decide
theorem test_decode_jp :
    decodeTableWord 24 0b10000001_00100011_11000011 = some (.jpA16 0x8123) ∧
    decodeTableWord 24 0b10000001_00100011_11000010 = some (.jpNzA16 0x8123) ∧
    decodeTableWord 24 0b10000001_00100011_11001010 = some (.jpZA16 0x8123) ∧
    decodeTableWord 24 0b10000001_00100011_11010010 = some (.jpNcA16 0x8123) ∧
    decodeTableWord 24 0b10000001_00100011_11011010 = some (.jpCA16 0x8123) := by
  decide
theorem test_decode_jr :
    decodeTableWord 16 0b10100101_00011000 = some (.jrE8 0xA5) ∧
    decodeTableWord 16 0b10100101_00100000 = some (.jrNzE8 0xA5) ∧
    decodeTableWord 16 0b10100101_00101000 = some (.jrZE8 0xA5) ∧
    decodeTableWord 16 0b10100101_00110000 = some (.jrNcE8 0xA5) ∧
    decodeTableWord 16 0b10100101_00111000 = some (.jrCE8 0xA5) := by
  decide
theorem test_decode_prefix_and_empty :
    decodeTableWord 16 0b00110001_11001011 = some (.prefixed 0x31) ∧
    decodeTableWord 16 0b11001011_11001011 = some (.prefixed 0xCB) ∧
    decodeTableWord 8 0b01110110 = some (.emptyPrimary 0x76) ∧
    decode Config.params [] = .error .noOpcode ∧
    decode Config.params [0xCB] = .error .noExtendedOpcode ∧
    decode Config.params [0xC3, 0x00] = .error .missingOperand := by
  decide

/-! LD SP,d16 (42_load_sp.md): rows V-SP of 95_test_vectors.md -/

theorem test_sp1 : nextIs (atDoc .wrap 0x0000 [0x31, 0x00, 0x20])
    ({ atDoc .wrap 0x0000 [0x31, 0x00, 0x20] with sp := 0x2000, pc := 0x0003, report := 12 }) = true := by decide
theorem test_sp6 : nextIs (poke (atDoc .wrap 0xFFFE [0x31, 0x34]) 0x0000 0x12)
    ({ poke (atDoc .wrap 0xFFFE [0x31, 0x34]) 0x0000 0x12 with sp := 0x1234, pc := 0x0001, report := 12 }) = true := by decide

/-! decode, empty entries and the prefix: rows V-DEC of 95_test_vectors.md -/

theorem test_dec1 : faultIs ({ atDoc .wrap 0x0003 [0x00] with sp := 0x1234 }) (.unimplementedOpcode .primary 0x00 0x0003) = true := by decide
theorem test_dec6 : faultIs (atGk .wrap 0x0000 [0x76]) (.unimplementedOpcode .primary 0x76 0x0000) = true := by decide
theorem test_dec7 : faultIs (atDoc .fault 0xFFFF [0xD3]) (.unimplementedOpcode .primary 0xD3 0xFFFF) = true := by decide
theorem test_dec8 : faultIs (atDoc .wrap 0x0000 [0xCB, 0x37]) (.unimplementedOpcode .extended 0x37 0x0000) = true := by decide
theorem test_dec10 : faultIs (poke (atDoc .wrap 0xFFFF [0xCB]) 0x0000 0x7C) (.unimplementedOpcode .extended 0x7C 0xFFFF) = true := by decide
theorem test_dec11 : faultIs (atDoc .fault 0xFFFF [0xCB]) (.outOfRangeAddress 0x10000) = true := by decide

/-! SM83-GK loads and NOP: rows V-LD of 95_test_vectors.md -/

theorem test_ld1 : nextIs (atGk .wrap 0x0000 [0x01, 0x34, 0x12])
    ({ atGk .wrap 0x0000 [0x01, 0x34, 0x12] with b := 0x12, c := 0x34, pc := 0x0003, report := 12 }) = true := by decide
theorem test_ld2 : nextIs (atGk .wrap 0x0000 [0x11, 0xFF, 0x00])
    ({ atGk .wrap 0x0000 [0x11, 0xFF, 0x00] with e := 0xFF, pc := 0x0003, report := 12 }) = true := by decide
theorem test_ld3 : nextIs ({ atGk .wrap 0x0000 [0x21, 0x00, 0xC0] with flags := Flags.unpack 0xF0 })
    ({ atGk .wrap 0x0000 [0x21, 0x00, 0xC0] with flags := Flags.unpack 0xF0, h := 0xC0, pc := 0x0003, report := 12 }) = true := by decide
theorem test_ld4 : nextIs (atGk .wrap 0x0000 [0x06, 0x5A])
    ({ atGk .wrap 0x0000 [0x06, 0x5A] with b := 0x5A, pc := 0x0002, report := 8 }) = true := by decide
theorem test_ld5 : nextIs (atGk .wrap 0x0000 [0x0E, 0x5A])
    ({ atGk .wrap 0x0000 [0x0E, 0x5A] with c := 0x5A, pc := 0x0002, report := 8 }) = true := by decide
theorem test_ld6 : nextIs (atGk .wrap 0x0000 [0x16, 0x5A])
    ({ atGk .wrap 0x0000 [0x16, 0x5A] with d := 0x5A, pc := 0x0002, report := 8 }) = true := by decide
theorem test_ld7 : nextIs (atGk .wrap 0x0000 [0x1E, 0x5A])
    ({ atGk .wrap 0x0000 [0x1E, 0x5A] with e := 0x5A, pc := 0x0002, report := 8 }) = true := by decide
theorem test_ld8 : nextIs (atGk .wrap 0x0000 [0x26, 0x5A])
    ({ atGk .wrap 0x0000 [0x26, 0x5A] with h := 0x5A, pc := 0x0002, report := 8 }) = true := by decide
theorem test_ld9 : nextIs (atGk .wrap 0x0000 [0x2E, 0x5A])
    ({ atGk .wrap 0x0000 [0x2E, 0x5A] with l := 0x5A, pc := 0x0002, report := 8 }) = true := by decide
theorem test_ld10 : nextIs (atGk .wrap 0x0000 [0x3E, 0x5A])
    ({ atGk .wrap 0x0000 [0x3E, 0x5A] with a := 0x5A, pc := 0x0002, report := 8 }) = true := by decide
theorem test_ld11 : nextIs ({ atGk .wrap 0x0000 [0x06, 0x00] with flags := Flags.unpack 0x80, b := 0x77 })
    ({ atGk .wrap 0x0000 [0x06, 0x00] with flags := Flags.unpack 0x80, b := 0x00, pc := 0x0002, report := 8 }) = true := by decide
theorem test_ld12 : nextIs ({ atGk .wrap 0x0000 [0x36, 0x5A] with h := 0xC0 })
    ({ poke (atGk .wrap 0x0000 [0x36, 0x5A]) 0xC000 0x5A with h := 0xC0, pc := 0x0002, report := 12 }) = true := by decide
theorem test_ld13 : nextIs ({ atGk .wrap 0x0010 [0x36, 0x99] with l := 0x10 })
    ({ poke (atGk .wrap 0x0010 [0x36, 0x99]) 0x0010 0x99 with l := 0x10, pc := 0x0012, report := 12 }) = true := by decide
theorem test_ld14 : nextIs ({ poke (atGk .wrap 0x0000 [0x7E]) 0xC000 0xA5 with h := 0xC0 })
    ({ poke (atGk .wrap 0x0000 [0x7E]) 0xC000 0xA5 with h := 0xC0, a := 0xA5, pc := 0x0001, report := 8 }) = true := by decide
theorem test_ld15 : nextIs ({ atGk .wrap 0x0000 [0x7E] with a := 0x55 })
    ({ atGk .wrap 0x0000 [0x7E] with a := 0x7E, pc := 0x0001, report := 8 }) = true := by decide
theorem test_ld16 : nextIs ({ atGk .wrap 0x0000 [0x77] with a := 0x3C, h := 0xFF, l := 0xFF })
    ({ poke (atGk .wrap 0x0000 [0x77]) 0xFFFF 0x3C with a := 0x3C, h := 0xFF, l := 0xFF, pc := 0x0001, report := 8 }) = true := by decide
theorem test_ld19 : nextIs (atGk .wrap 0xFFFF [0x00])
    ({ atGk .wrap 0xFFFF [0x00] with pc := 0x0000, report := 4 }) = true := by decide
theorem test_ld20 : faultIs (atGk .fault 0xFFFF [0x00]) (.outOfRangeAddress 0x10000) = true := by decide

/-! SM83-GK arithmetic: rows V-ALU of 95_test_vectors.md -/

theorem test_alu1 : nextIs ({ atGk .wrap 0x0000 [0x80] with a := 0xFF, b := 0x01 })
    ({ atGk .wrap 0x0000 [0x80] with a := 0x00, b := 0x01, flags := Flags.unpack 0xB0, pc := 0x0001, report := 4 }) = true := by decide
theorem test_alu2 : nextIs ({ atGk .wrap 0x0000 [0x81] with a := 0xFF, c := 0x01 })
    ({ atGk .wrap 0x0000 [0x81] with a := 0x00, c := 0x01, flags := Flags.unpack 0xB0, pc := 0x0001, report := 4 }) = true := by decide
theorem test_alu3 : nextIs ({ atGk .wrap 0x0000 [0x82] with a := 0xFF, d := 0x01 })
    ({ atGk .wrap 0x0000 [0x82] with a := 0x00, d := 0x01, flags := Flags.unpack 0xB0, pc := 0x0001, report := 4 }) = true := by decide
theorem test_alu4 : nextIs ({ atGk .wrap 0x0000 [0x83] with a := 0xFF, e := 0x01 })
    ({ atGk .wrap 0x0000 [0x83] with a := 0x00, e := 0x01, flags := Flags.unpack 0xB0, pc := 0x0001, report := 4 }) = true := by decide
theorem test_alu5 : nextIs ({ atGk .wrap 0x0000 [0x84] with a := 0xFF, h := 0x01 })
    ({ atGk .wrap 0x0000 [0x84] with a := 0x00, h := 0x01, flags := Flags.unpack 0xB0, pc := 0x0001, report := 4 }) = true := by decide
theorem test_alu6 : nextIs ({ atGk .wrap 0x0000 [0x85] with a := 0xFF, l := 0x01 })
    ({ atGk .wrap 0x0000 [0x85] with a := 0x00, l := 0x01, flags := Flags.unpack 0xB0, pc := 0x0001, report := 4 }) = true := by decide
theorem test_alu7 : nextIs ({ atGk .wrap 0x0000 [0x87] with a := 0x80 })
    ({ atGk .wrap 0x0000 [0x87] with a := 0x00, flags := Flags.unpack 0x90, pc := 0x0001, report := 4 }) = true := by decide
theorem test_alu8 : nextIs ({ atGk .wrap 0x0000 [0x87] with a := 0x08 })
    ({ atGk .wrap 0x0000 [0x87] with a := 0x10, flags := Flags.unpack 0x20, pc := 0x0001, report := 4 }) = true := by decide
theorem test_alu9 : nextIs ({ poke (atGk .wrap 0x0000 [0x86]) 0xC000 0xC6 with a := 0x3A, h := 0xC0 })
    ({ poke (atGk .wrap 0x0000 [0x86]) 0xC000 0xC6 with a := 0x00, h := 0xC0, flags := Flags.unpack 0xB0, pc := 0x0001, report := 8 }) = true := by decide
theorem test_alu10 : nextIs ({ atGk .wrap 0x0000 [0x86] with a := 0x01 })
    ({ atGk .wrap 0x0000 [0x86] with a := 0x87, pc := 0x0001, report := 8 }) = true := by decide
theorem test_alu11 : nextIs ({ atGk .wrap 0x0000 [0xC6, 0x01] with a := 0x0F })
    ({ atGk .wrap 0x0000 [0xC6, 0x01] with a := 0x10, flags := Flags.unpack 0x20, pc := 0x0002, report := 8 }) = true := by decide
theorem test_alu13 : nextIs ({ atGk .wrap 0x0000 [0x88] with a := 0xFF, flags := Flags.unpack 0x10 })
    ({ atGk .wrap 0x0000 [0x88] with a := 0x00, flags := Flags.unpack 0xB0, pc := 0x0001, report := 4 }) = true := by decide
theorem test_alu14 : nextIs ({ atGk .wrap 0x0000 [0x89] with a := 0x0E, flags := Flags.unpack 0x10, c := 0x01 })
    ({ atGk .wrap 0x0000 [0x89] with a := 0x10, flags := Flags.unpack 0x20, c := 0x01, pc := 0x0001, report := 4 }) = true := by decide
theorem test_alu16 : nextIs ({ atGk .wrap 0x0000 [0x8F] with a := 0xFF, flags := Flags.unpack 0x10 })
    ({ atGk .wrap 0x0000 [0x8F] with a := 0xFF, flags := Flags.unpack 0x30, pc := 0x0001, report := 4 }) = true := by decide
theorem test_alu17 : nextIs ({ poke (atGk .wrap 0x0000 [0x8E]) 0xC000 0x7F with a := 0x80, flags := Flags.unpack 0x10, h := 0xC0 })
    ({ poke (atGk .wrap 0x0000 [0x8E]) 0xC000 0x7F with a := 0x00, flags := Flags.unpack 0xB0, h := 0xC0, pc := 0x0001, report := 8 }) = true := by decide
theorem test_alu18 : nextIs ({ atGk .wrap 0x0000 [0xCE, 0x0F] with a := 0xF0, flags := Flags.unpack 0x10 })
    ({ atGk .wrap 0x0000 [0xCE, 0x0F] with a := 0x00, flags := Flags.unpack 0xB0, pc := 0x0002, report := 8 }) = true := by decide
theorem test_alu19 : nextIs ({ atGk .wrap 0x0000 [0xCE, 0x00] with flags := Flags.unpack 0xE0 })
    ({ atGk .wrap 0x0000 [0xCE, 0x00] with flags := Flags.unpack 0x80, pc := 0x0002, report := 8 }) = true := by decide
theorem test_alu20 : nextIs ({ atGk .wrap 0x0000 [0x90] with b := 0x01 })
    ({ atGk .wrap 0x0000 [0x90] with b := 0x01, a := 0xFF, flags := Flags.unpack 0x70, pc := 0x0001, report := 4 }) = true := by decide
theorem test_alu21 : nextIs ({ atGk .wrap 0x0000 [0x91] with a := 0x10, c := 0x01 })
    ({ atGk .wrap 0x0000 [0x91] with a := 0x0F, c := 0x01, flags := Flags.unpack 0x60, pc := 0x0001, report := 4 }) = true := by decide
theorem test_alu22 : nextIs ({ atGk .wrap 0x0000 [0x92] with a := 0x3E, d := 0x40 })
    ({ atGk .wrap 0x0000 [0x92] with a := 0xFE, d := 0x40, flags := Flags.unpack 0x50, pc := 0x0001, report := 4 }) = true := by decide
theorem test_alu23 : nextIs ({ atGk .wrap 0x0000 [0x97] with a := 0x42, flags := Flags.unpack 0x30 })
    ({ atGk .wrap 0x0000 [0x97] with a := 0x00, flags := Flags.unpack 0xC0, pc := 0x0001, report := 4 }) = true := by decide
theorem test_alu24 : nextIs ({ poke (atGk .wrap 0x0000 [0x96]) 0xC000 0x05 with a := 0x05, h := 0xC0 })
    ({ poke (atGk .wrap 0x0000 [0x96]) 0xC000 0x05 with a := 0x00, h := 0xC0, flags := Flags.unpack 0xC0, pc := 0x0001, report := 8 }) = true := by decide
theorem test_alu25 : nextIs (atGk .wrap 0x0000 [0xD6, 0x80])
    ({ atGk .wrap 0x0000 [0xD6, 0x80] with a := 0x80, flags := Flags.unpack 0x50, pc := 0x0002, report := 8 }) = true := by decide
theorem test_alu26 : nextIs ({ atGk .wrap 0x0000 [0xD6, 0x00] with a := 0x01, flags := Flags.unpack 0x10 })
    ({ atGk .wrap 0x0000 [0xD6, 0x00] with a := 0x01, flags := Flags.unpack 0x40, pc := 0x0002, report := 8 }) = true := by decide
theorem test_alu28 : faultIs ({ atGk .fault 0xFFFF [0xC6] with a := 0x01 }) (.outOfRangeAddress 0x10000) = true := by decide

/-! SM83-GK control transfer: rows V-CT of 95_test_vectors.md -/

theorem test_ct1 : nextIs (atGk .wrap 0x0000 [0xC3, 0x0A, 0x00])
    ({ atGk .wrap 0x0000 [0xC3, 0x0A, 0x00] with pc := 0x000A, report := 16 }) = true := by decide
theorem test_ct3 : nextIs (atGk .fault 0xFFFD [0xC3, 0x34, 0x12])
    ({ atGk .fault 0xFFFD [0xC3, 0x34, 0x12] with pc := 0x1234, report := 16 }) = true := by decide
theorem test_ct5 : nextIs ({ atGk .wrap 0x0000 [0xC2, 0x00, 0x20] with flags := Flags.unpack 0x90 })
    ({ atGk .wrap 0x0000 [0xC2, 0x00, 0x20] with flags := Flags.unpack 0x90, pc := 0x0003, report := 12 }) = true := by decide
theorem test_ct13 : nextIs (atGk .fault 0xFFFD [0xC2, 0x00, 0x20])
    ({ atGk .fault 0xFFFD [0xC2, 0x00, 0x20] with pc := 0x2000, report := 16 }) = true := by decide
theorem test_ct6 : nextIs (atGk .wrap 0x0000 [0xCA, 0x00, 0x20])
    ({ atGk .wrap 0x0000 [0xCA, 0x00, 0x20] with pc := 0x0003, report := 12 }) = true := by decide
theorem test_ct7 : nextIs ({ atGk .wrap 0x0000 [0xCA, 0x00, 0x20] with flags := Flags.unpack 0x90 })
    ({ atGk .wrap 0x0000 [0xCA, 0x00, 0x20] with flags := Flags.unpack 0x90, pc := 0x2000, report := 16 }) = true := by decide
theorem test_ct8 : nextIs (atGk .wrap 0x0000 [0xD2, 0x00, 0x20])
    ({ atGk .wrap 0x0000 [0xD2, 0x00, 0x20] with pc := 0x2000, report := 16 }) = true := by decide
theorem test_ct9 : nextIs ({ atGk .wrap 0x0000 [0xD2, 0x00, 0x20] with flags := Flags.unpack 0x90 })
    ({ atGk .wrap 0x0000 [0xD2, 0x00, 0x20] with flags := Flags.unpack 0x90, pc := 0x0003, report := 12 }) = true := by decide
theorem test_ct10 : nextIs (atGk .wrap 0x0000 [0xDA, 0x00, 0x20])
    ({ atGk .wrap 0x0000 [0xDA, 0x00, 0x20] with pc := 0x0003, report := 12 }) = true := by decide
theorem test_ct11 : nextIs ({ atGk .wrap 0x0000 [0xDA, 0x00, 0x20] with flags := Flags.unpack 0x90 })
    ({ atGk .wrap 0x0000 [0xDA, 0x00, 0x20] with flags := Flags.unpack 0x90, pc := 0x2000, report := 16 }) = true := by decide
theorem test_ct15 : nextIs (atGk .fault 0x0000 [0x18, 0xFC])
    ({ atGk .fault 0x0000 [0x18, 0xFC] with pc := 0xFFFE, report := 12 }) = true := by decide
theorem test_ct16 : nextIs (atGk .wrap 0x0100 [0x18, 0x80])
    ({ atGk .wrap 0x0100 [0x18, 0x80] with pc := 0x0082, report := 12 }) = true := by decide
theorem test_ct22 : nextIs (atGk .wrap 0x0004 [0x20, 0xFC])
    ({ atGk .wrap 0x0004 [0x20, 0xFC] with pc := 0x0002, report := 12 }) = true := by decide
theorem test_ct23 : nextIs ({ atGk .wrap 0x0004 [0x20, 0xFC] with flags := Flags.unpack 0x90 })
    ({ atGk .wrap 0x0004 [0x20, 0xFC] with flags := Flags.unpack 0x90, pc := 0x0006, report := 8 }) = true := by decide
theorem test_ct24 : nextIs (atGk .wrap 0x0004 [0x28, 0xFC])
    ({ atGk .wrap 0x0004 [0x28, 0xFC] with pc := 0x0006, report := 8 }) = true := by decide
theorem test_ct25 : nextIs ({ atGk .wrap 0x0004 [0x28, 0xFC] with flags := Flags.unpack 0x90 })
    ({ atGk .wrap 0x0004 [0x28, 0xFC] with flags := Flags.unpack 0x90, pc := 0x0002, report := 12 }) = true := by decide
theorem test_ct26 : nextIs (atGk .wrap 0x0004 [0x30, 0xFC])
    ({ atGk .wrap 0x0004 [0x30, 0xFC] with pc := 0x0002, report := 12 }) = true := by decide
theorem test_ct27 : nextIs ({ atGk .wrap 0x0004 [0x30, 0xFC] with flags := Flags.unpack 0x90 })
    ({ atGk .wrap 0x0004 [0x30, 0xFC] with flags := Flags.unpack 0x90, pc := 0x0006, report := 8 }) = true := by decide
theorem test_ct28 : nextIs (atGk .wrap 0x0004 [0x38, 0xFC])
    ({ atGk .wrap 0x0004 [0x38, 0xFC] with pc := 0x0006, report := 8 }) = true := by decide
theorem test_ct29 : nextIs ({ atGk .wrap 0x0004 [0x38, 0xFC] with flags := Flags.unpack 0x90 })
    ({ atGk .wrap 0x0004 [0x38, 0xFC] with flags := Flags.unpack 0x90, pc := 0x0002, report := 12 }) = true := by decide

/-! Register forms without a row there: the operands and results of rows ALU14 and ALU22, by rules R143 and R146 -/

theorem test_adc_a_d : nextIs ({ atGk .wrap 0x0000 [0x8A] with a := 0x0E, flags := Flags.unpack 0x10, d := 0x01 })
    ({ atGk .wrap 0x0000 [0x8A] with a := 0x10, flags := Flags.unpack 0x20, d := 0x01, pc := 0x0001, report := 4 }) = true := by decide
theorem test_adc_a_e : nextIs ({ atGk .wrap 0x0000 [0x8B] with a := 0x0E, flags := Flags.unpack 0x10, e := 0x01 })
    ({ atGk .wrap 0x0000 [0x8B] with a := 0x10, flags := Flags.unpack 0x20, e := 0x01, pc := 0x0001, report := 4 }) = true := by decide
theorem test_adc_a_h : nextIs ({ atGk .wrap 0x0000 [0x8C] with a := 0x0E, flags := Flags.unpack 0x10, h := 0x01 })
    ({ atGk .wrap 0x0000 [0x8C] with a := 0x10, flags := Flags.unpack 0x20, h := 0x01, pc := 0x0001, report := 4 }) = true := by decide
theorem test_adc_a_l : nextIs ({ atGk .wrap 0x0000 [0x8D] with a := 0x0E, flags := Flags.unpack 0x10, l := 0x01 })
    ({ atGk .wrap 0x0000 [0x8D] with a := 0x10, flags := Flags.unpack 0x20, l := 0x01, pc := 0x0001, report := 4 }) = true := by decide
theorem test_sub_e : nextIs ({ atGk .wrap 0x0000 [0x93] with a := 0x3E, e := 0x40 })
    ({ atGk .wrap 0x0000 [0x93] with a := 0xFE, e := 0x40, flags := Flags.unpack 0x50, pc := 0x0001, report := 4 }) = true := by decide
theorem test_sub_h : nextIs ({ atGk .wrap 0x0000 [0x94] with a := 0x3E, h := 0x40 })
    ({ atGk .wrap 0x0000 [0x94] with a := 0xFE, h := 0x40, flags := Flags.unpack 0x50, pc := 0x0001, report := 4 }) = true := by decide
theorem test_sub_l : nextIs ({ atGk .wrap 0x0000 [0x95] with a := 0x3E, l := 0x40 })
    ({ atGk .wrap 0x0000 [0x95] with a := 0xFE, l := 0x40, flags := Flags.unpack 0x50, pc := 0x0001, report := 4 }) = true := by decide

/-! Witnesses: states and operands that meet each statement's hypotheses, at the boundary of each clause -/

/-- The invariant, well-formed parameters and a memory in canonical form. -/
theorem wit_InvariantHoldsAtCreation :
    Config.params.wf = true ∧ Memory.wf [(0, 0x31), (0xFFFF, 0x20)] = true ∧ Inv State.reset := by decide

/-- An image that ends at the top of memory, and one a byte longer. -/
theorem wit_LoadImageCopiesOrFails :
    (0xFFFE#16).toNat + [0x12#8, 0x34#8].length ≤ 0x10000 ∧
    0x10000 < (0xFFFF#16).toNat + [0x12#8, 0x34#8].length := by decide

theorem wit_AnyByteArrayIsAMemory : (List.replicate 0x10000 (0x76#8)).length = 0x10000 := List.length_replicate

/-- A launch that succeeds, and the same images before one that could not be read. -/
theorem wit_BootNeedsEveryImage :
    (0xFFFF#16).toNat + [0x31#8].length ≤ 0x10000 ∧
    boot Config.params [] none [{ source := .read [0x31], origin := 0xFFFF }] =
        .ok { State.reset with mem := [(0xFFFF, 0x31)] } ∧
    boot Config.params [] none
        ([{ source := .read [0x31], origin := 0xFFFF }] ++ { source := .failed .missingFile, origin := 0 } :: []) =
        .error (.imageReadError .missingFile) := ⟨by decide, by rfl, by rfl⟩

/-- An image that ends at the top of memory and one a byte longer. -/
theorem wit_BootLoadsItsImages :
    (0xFFFE#16).toNat + [0x31#8, 0x34#8].length ≤ 0x10000 ∧
    0x10000 < (0xFFFF#16).toNat + [0x31#8, 0x34#8].length := by decide

/-- A supplied state with every register, flag and pointer different. -/
theorem test_inject :
    let s := State.inject Config.params [(0, 0x31)]
      { a := 1, b := 2, c := 3, d := 4, e := 5, h := 6, l := 7
        flags := Flags.unpack 0x50, sp := 0x8000, pc := 0x9000 }
    s.af = 0x0150 ∧ s.bc = 0x0203 ∧ s.de = 0x0405 ∧ s.hl = 0x0607 ∧ s.sp = 0x8000 ∧ s.pc = 0x9000 ∧
      s.byteAt 0x0000 = 0x31 := by decide

/-- The kinds and codes of rule R160. -/
theorem test_error_codes :
    (LoadError.imageReadError .ioFailure).kind.code = 3 ∧ (LoadError.outOfRangeAddress 0x10000).kind.code = 2 ∧
    (Fault.outOfRangeAddress 0x10000).kind.code = 2 ∧
    (Fault.unimplementedOpcode .primary 0x76 0x0000).kind.code = 1 := by decide

theorem wit_AdcComputesSumAndFlags :
    aluAdc 0xFF 0x00 (Flags.unpack 0x10) = (0x00, Flags.unpack 0xB0) ∧
    aluAdc 0xFF 0x00 (Flags.unpack 0xE0) = (0xFF, Flags.unpack 0x00) := by decide

/-- Rule R96's two conditional clauses: a zero operand, and a clear incoming carry. -/
theorem wit_FlagLawsOfTheAlu :
    (aluSub 0x80 0x00 (Flags.unpack 0xF0)).2 = Flags.unpack 0x40 ∧ (Flags.unpack 0xE0).c = false ∧
    aluAdc 0x88 0x88 (Flags.unpack 0xE0) = aluAdd 0x88 0x88 (Flags.unpack 0xE0) := by decide

theorem wit_BusAccessesOneByteInRange :
    (0xFFFF ≤ 0xFFFF ∧ busRead [(0xFFFF, 0x12)] 0xFFFF = .ok 0x12 ∧
      busWrite [(0xFFFF, 0x12)] 0xFFFF 0x00 = .ok []) ∧
    (0xFFFF < 0x10000 ∧ busRead [] 0x10000 = .error (.outOfRangeAddress 0x10000)) := by
  refine ⟨⟨by decide, by rfl, by rfl⟩, by decide, by rfl⟩

theorem wit_AddrWrapsOrRaises :
    (3 ∈ [1, 2, 3] ∧ (0xFFFC#16).toNat + 3 ≤ 0xFFFF ∧ addrAfter .fault 0xFFFC 3 = .ok 0xFFFF) ∧
    (0xFFFF < (0xFFFD#16).toNat + 3 ∧ addrAfter .wrap 0xFFFD 3 = .ok 0x0000 ∧
      addrAfter .fault 0xFFFD 3 = .error (.outOfRangeAddress 0x10000)) := by
  refine ⟨⟨by decide, by decide, by rfl⟩, by decide, by rfl, by rfl⟩

theorem wit_MemoryKeepsCanonicalForm :
    Memory.wf [(0x10, 0x12)] = true ∧ busWrite [(0x10, 0x12)] 0xFFFF 0x34 = .ok [(0x10, 0x12), (0xFFFF, 0x34)] :=
  ⟨by decide, by rfl⟩

/-- An instruction with an operand, a prefixed pair and an empty entry. -/
theorem wit_DecodeReadsBackEveryEncoding :
    Config.params.wf = true ∧ Instr.wf Config.params (.jpNzA16 0xBEEF) = true ∧
    Instr.wf Config.params (.prefixed 0xCB) = true ∧ Instr.wf Config.params (.emptyPrimary 0xFF) = true := by decide

theorem wit_EncodeGivesBackDecodedBytes :
    decode Config.params [0xC2, 0xEF, 0xBE, 0x00] = .ok (.jpNzA16 0xBEEF, [0x00]) ∧
    decode Config.params [0xCB, 0xCB] = .ok (.prefixed 0xCB, []) ∧
    decode Config.params [0xFF, 0x00] = .ok (.emptyPrimary 0xFF, [0x00]) := ⟨by rfl, by rfl, by rfl⟩

theorem wit_DocumentedTableHoldsOneRow : (primaryEntry .gobyDoc 0x31).isSome = true := by decide

/-- The three bytes below the top under `fault`, and across the top under `wrap`. -/
theorem wit_StepRunsTheDecodedInstruction :
    (decode (atGk .fault 0xFFFD [0xC3, 0x34, 0x12]).cfg [0xC3, 0x34, 0x12] = .ok (.jpA16 0x1234, []) ∧
      BytesAtPc (atGk .fault 0xFFFD [0xC3, 0x34, 0x12]) [0xC3, 0x34, 0x12]) ∧
    BytesAtPc (atGk .wrap 0xFFFE [0xC3, 0x34, 0x12]) [0xC3, 0x34, 0x12] := by
  refine ⟨⟨by rfl, by decide⟩, by decide⟩

/-- An opcode empty in both tables, at the top under `fault`; a profile opcode under GOBOY-DOC. -/
theorem wit_EmptyPrimaryEntryRaises :
    (let s := atGk .fault 0xFFFF [0xD3]
     s.byteAt s.pc ≠ s.cfg.prefixOpcode ∧ s.byteAt s.pc ∉ s.cfg.table.populated) ∧
    (let s := atDoc .wrap 0x0000 [0x80]
     s.byteAt s.pc ≠ s.cfg.prefixOpcode ∧ s.byteAt s.pc ∉ s.cfg.table.populated) := by decide

theorem wit_PrefixedPairRaises :
    (let s := atGk .fault 0xFFFE [0xCB, 0x37]
     s.byteAt s.pc = s.cfg.prefixOpcode ∧ HasRoom 1 s) ∧
    (let s := atGk .fault 0xFFFF [0xCB]
     s.byteAt s.pc = s.cfg.prefixOpcode ∧ s.cfg.addrWrap = .fault ∧ s.pc = 0xFFFF) := by decide

/-- Under `wrap`: a populated opcode, an empty entry and the prefix byte. -/
theorem wit_StepCompletesExactlyOnPopulatedOpcodes :
    completes (step (atGk .wrap 0xFFFF [0x31, 0x00, 0x20])) = true ∧
    completes (step (atGk .wrap 0xFFFF [0x10])) = false ∧
    completes (step (atGk .wrap 0xFFFF [0xCB])) = false := by decide

/-- The last operand, the second byte of a pair and the address of the next instruction past the top. -/
theorem wit_OutOfRangeOnlyNearTheTop :
    step (atGk .fault 0xFFFE [0xC3, 0x34]) = .fault (.outOfRangeAddress 0x10000) ∧
    step (atGk .fault 0xFFFF [0xCB]) = .fault (.outOfRangeAddress 0x10000) ∧
    step (atGk .fault 0xFFFD [0x01, 0x34, 0x12]) = .fault (.outOfRangeAddress 0x10000) :=
  ⟨fault_of_isFault (by decide), fault_of_isFault (by decide), fault_of_isFault (by decide)⟩

/-- An error; an unconditional descriptor; a conditional one with its condition true, and false. -/
theorem wit_CyclesAreTheDescriptors :
    step (atGk .wrap 0x0000 [0x76]) = .fault (.unimplementedOpcode .primary 0x76 0x0000) ∧
    step (atGk .wrap 0x0000 [0x00]) = .next { atGk .wrap 0x0000 [0x00] with pc := 0x0001, report := 4 } ∧
    step (atGk .wrap 0x0000 [0x20, 0x02]) = .next { atGk .wrap 0x0000 [0x20, 0x02] with pc := 0x0004, report := 12 } ∧
    step (atGk .wrap 0x0000 [0x28, 0x02]) = .next { atGk .wrap 0x0000 [0x28, 0x02] with pc := 0x0002, report := 8 } :=
  ⟨fault_of_isFault (by decide), next_of_isNext (by decide), next_of_isNext (by decide), next_of_isNext (by decide)⟩

/-- `HasRoom` at its last address under `fault`, not past it, and past it under `wrap`. -/
theorem wit_HasRoom :
    HasRoom 1 (atGk .fault 0xFFFE []) ∧ HasRoom 2 (atGk .fault 0xFFFD []) ∧ HasRoom 3 (atGk .fault 0xFFFC []) ∧
    ¬ HasRoom 1 (atGk .fault 0xFFFF []) ∧ ¬ HasRoom 2 (atGk .fault 0xFFFE []) ∧ ¬ HasRoom 3 (atGk .fault 0xFFFD []) ∧
    HasRoom 3 (atGk .wrap 0xFFFF []) := by decide

theorem wit_LdSpLoadsTheStackPointer :
    (let s := atDoc .fault 0xFFFC [0x31, 0x00, 0x20]
     s.cfg.wf = true ∧ s.byteAt s.pc = 0x31 ∧ HasRoom 3 s ∧ completes (step s) = true) ∧
    (let s := atDoc .fault 0xFFFD [0x31, 0x00, 0x20]
     s.cfg.wf = true ∧ s.byteAt s.pc = 0x31 ∧ s.cfg.addrWrap = .fault ∧ 0xFFFD ≤ s.pc.toNat ∧
       faultIs s (.outOfRangeAddress 0x10000) = true) := by decide

/-- The opcodes of `RaisesFrom` with three bytes and an advance: each meets its premises at the first address that raises and
at 0xFFFF, and completes one address below. -/
theorem wit_RaisesFrom_three_bytes : ∀ op ∈ [0x01#8, 0x11#8, 0x21#8],
    (FetchesProfile op (atGk .fault 0xFFFD [op]) ∧ faultIs (atGk .fault 0xFFFD [op]) (.outOfRangeAddress 0x10000) = true) ∧
    (FetchesProfile op (atGk .fault 0xFFFF [op]) ∧ faultIs (atGk .fault 0xFFFF [op]) (.outOfRangeAddress 0x10000) = true) ∧
    completes (step (atGk .fault 0xFFFC [op])) = true := by decide

theorem wit_RaisesFrom_two_bytes : ∀ op ∈ [0x06#8, 0x0E#8, 0x16#8, 0x1E#8, 0x26#8, 0x2E#8, 0x3E#8, 0x36#8, 0xC6#8, 0xCE#8,
      0xD6#8, 0x18#8, 0x20#8, 0x28#8, 0x30#8, 0x38#8],
    (FetchesProfile op (atGk .fault 0xFFFE [op]) ∧ faultIs (atGk .fault 0xFFFE [op]) (.outOfRangeAddress 0x10000) = true) ∧
    completes (step (atGk .fault 0xFFFD [op])) = true := by decide

theorem wit_RaisesFrom_one_byte : ∀ op ∈ [0x00#8, 0x77#8, 0x7E#8] ++
      [0x80#8, 0x81#8, 0x82#8, 0x83#8, 0x84#8, 0x85#8, 0x86#8, 0x87#8] ++
      [0x88#8, 0x89#8, 0x8A#8, 0x8B#8, 0x8C#8, 0x8D#8, 0x8E#8, 0x8F#8] ++
      [0x90#8, 0x91#8, 0x92#8, 0x93#8, 0x94#8, 0x95#8, 0x96#8, 0x97#8],
    (FetchesProfile op (atGk .fault 0xFFFF [op]) ∧ faultIs (atGk .fault 0xFFFF [op]) (.outOfRangeAddress 0x10000) = true) ∧
    completes (step (atGk .fault 0xFFFE [op])) = true := by decide

/-- The jumps to an address raise from 0xFFFE on; at 0xFFFD a jump completes when taken and raises when not. -/
theorem wit_RaisesFrom_jumps : ∀ op ∈ [0xC3#8, 0xC2#8, 0xCA#8, 0xD2#8, 0xDA#8],
    FetchesProfile op (atGk .fault 0xFFFE [op]) ∧
    faultIs (atGk .fault 0xFFFE [op]) (.outOfRangeAddress 0x10000) = true ∧
    completes (step (atGk .fault 0xFFFC [op])) = true := by decide

theorem wit_JpSetsPc :
    FetchesProfile 0xC3 (atGk .fault 0xFFFD [0xC3, 0x34, 0x12]) ∧ HasRoom 2 (atGk .fault 0xFFFD [0xC3, 0x34, 0x12]) := by
  decide

/-- Conditions true and false, and the clause at 0xFFFD. -/
theorem wit_JpConditionalTakesItsCondition :
    (let s := atGk .fault 0xFFFD [0xC2]
     (!s.flags.z) = true ∧ completes (step s) = true) ∧
    (let s := atGk .fault 0xFFFC [0xCA]
     s.flags.z = false ∧ HasRoom 3 s ∧ completes (step s) = true) ∧
    (let s := atGk .fault 0xFFFD [0xDA]
     FetchesProfile 0xDA s ∧ s.cfg.addrWrap = .fault ∧ s.pc = 0xFFFD ∧ s.flags.c = false ∧
       faultIs s (.outOfRangeAddress 0x10000) = true) := by decide

theorem wit_JrConditionalTakesItsCondition :
    (let s := { atGk .fault 0xFFFD [0x38, 0x80] with flags := Flags.unpack 0x10 }
     s.flags.c = true ∧ HasRoom 2 s ∧ completes (step s) = true) ∧
    (let s := atGk .fault 0xFFFD [0x38, 0x80]
     s.flags.c = false ∧ HasRoom 2 s ∧ completes (step s) = true) := by decide

/-- A next state of an ALU form, a load, a store and a jump: the premise of the four frames. -/
theorem wit_frames :
    (∃ t, exec (.adcAD8 0x01) State.reset = .next t) ∧ (∃ t, exec (.ldHlD16 0xC000) State.reset = .next t) ∧
    (∃ t, exec (.ldSpD16 0x2000) State.reset = .next t) ∧ (∃ t, exec (.ldIndHlD8 0x5A) State.reset = .next t) ∧
    (∃ t, exec (.jrNzE8 0xFC) State.reset = .next t) :=
  ⟨next_of_completes (by decide), next_of_completes (by decide), next_of_completes (by decide),
    next_of_completes (by decide), next_of_completes (by decide)⟩

/-- A store from a state that meets the invariant. -/
theorem wit_StepKeepsTheInvariant :
    Inv { atGk .wrap 0x0000 [0x36, 0x5A] with h := 0xC0 } ∧
    ∃ t, step { atGk .wrap 0x0000 [0x36, 0x5A] with h := 0xC0 } = .next t :=
  ⟨by decide, next_of_completes (by decide)⟩

/-- A step that changes the stack pointer. -/
theorem wit_OnlyLdSpWritesTheStackPointer :
    let s := atGk .wrap 0x0000 [0x31, 0x00, 0x20]
    step s = .next { s with sp := 0x2000, pc := 0x0003, report := 12 } ∧ (0x2000 : Word) ≠ s.sp :=
  ⟨next_of_isNext (by decide), by decide⟩

/-- A step that changes a byte of memory. -/
theorem wit_OnlyStoresWriteMemory :
    let s := { atGk .wrap 0x0000 [0x77] with a := 0x3C, h := 0xFF, l := 0xFF }
    let t := { poke s 0xFFFF 0x3C with pc := 0x0001, report := 8 }
    step s = .next t ∧ t.byteAt 0xFFFF ≠ s.byteAt 0xFFFF :=
  ⟨next_of_isNext (by decide), by decide⟩

/-- The first and the last ALU opcode of the block and the immediate forms, and one below and one that is no ALU opcode. -/
theorem wit_OnlyAluOpcodesWriteFlags : ∀ op ∈ [0x80#8, 0x97#8, 0xC6#8, 0xCE#8, 0xD6#8, 0x7E#8, 0xC3#8],
    completes (step (atGk .wrap 0x0000 [op])) = true := by decide

/-- GOBOY-DOC, under `fault` at its last address: also a witness for the two comparisons of configurations. -/
theorem wit_documented_step :
    let s := atDoc .fault 0xFFFC [0x31, 0x34, 0x12]
    s.cfg.table = .gobyDoc ∧ s.cfg.addrWrap = .fault ∧
      step s = .next { s with sp := 0x1234, pc := 0xFFFF, report := 12 } :=
  ⟨by decide, by decide, next_of_isNext (by decide)⟩

/-- The byte 0xD3 stored over the next opcode. -/
theorem wit_NextFetchSeesTheStoredByte :
    let s := { atGk .wrap 0x0000 [0x77] with a := 0xD3, l := 0x01 }
    FetchesProfile 0x77 s ∧
    step s = .next { poke s 0x0001 0xD3 with pc := 0x0001, report := 8 } ∧ s.hl = 0x0001 ∧
    s.a ≠ s.cfg.prefixOpcode ∧ s.a ∉ s.cfg.table.populated :=
  ⟨by decide, next_of_isNext (by decide), by decide, by decide, by decide⟩

theorem wit_ErrorsCommitNothing :
    (stepCall 7 (atGk .wrap 0x0000 [0x00])).result = .ok ∧
    (stepCall 7 (atGk .wrap 0x0000 [0x76])).result = .unimplementedOpcode .primary 0x76 0x0000 := by decide

/-- A run that ends at once, one that ends after a step, and one that faults. -/
theorem wit_RunOutcomesAreFinal :
    runTo 0x0000 0 (atGk .wrap 0x0000 [0x76]) = .ended (atGk .wrap 0x0000 [0x76]) 0 0 ∧
    runTo 0x0001 5 (atGk .wrap 0x0000 [0x00]) =
      .ended { atGk .wrap 0x0000 [0x00] with pc := 0x0001, report := 4 } 1 4 ∧
    runTo 0x0001 5 (atGk .wrap 0x0000 [0x76]) =
      .faulted (.unimplementedOpcode .primary 0x76 0x0000) (atGk .wrap 0x0000 [0x76]) 0 0 := by decide

end Sys2Proof.Tests
end

section
/-! PROOFS of 00_scope.md. The one instruction of GOBOY-DOC, LD SP,d16 (rule R120), steps alike under either table; so
SM83-GK extends GOBOY-DOC (rule R4). -/

namespace Sys2Proof.Proofs.Scope

open Sys2Proof.Machine Sys2Proof.Safety Sys2Proof.Laws

/-- The row of LD SP,d16 stands in the table of both configurations (rules R80, R81). -/
theorem primaryEntry_ldSpD16 (tbl : Table) :
    primaryEntry tbl 0x31#8 = some ⟨"LD_SP_d16", .imm16 .ldSpD16, 12, none⟩ := by
  cases tbl <;> rfl

/-- GOBOY-DOC populates no other opcode (rule R80). -/
theorem opcode_of_gobyDoc_entry {op : Byte} {d : Descriptor} (hd : primaryEntry .gobyDoc op = some d) : op = 0x31#8 := by
  by_contra hop
  rw [(primaryEntry_none .gobyDoc op).mpr (by simpa [Table.populated] using hop)] at hd
  cases hd

/-- A step at LD SP,d16 with room for its three bytes, under either table (rule R120). -/
theorem step_ldSpD16_room {s : State} (hp : s.byteAt s.pc ≠ s.cfg.prefixOpcode) (hop : s.byteAt s.pc = 0x31#8)
    (hr : HasRoom 3 s) :
    step s = .next { s with sp := joinBytes (s.byteAt (s.pc + 2)) (s.byteAt (s.pc + 1)), pc := s.pc + 3, report := 12 } := by
  rw [step_populated hp (by rw [hop, primaryEntry_ldSpD16]), fetchOperands_imm16 (hasRoom_mono (by decide) hr)]
  exact finish_room (s := { s with sp := _ }) hr

/-- Without that room the step raises at 0x10000: at an operand, or at the next instruction's address (rules R56, R120). -/
theorem step_ldSpD16_noRoom {s : State} (hp : s.byteAt s.pc ≠ s.cfg.prefixOpcode) (hop : s.byteAt s.pc = 0x31#8)
    (hr : ¬ HasRoom 3 s) : step s = .fault (.outOfRangeAddress 0x10000) := by
  rw [step_populated hp (by rw [hop, primaryEntry_ldSpD16])]
  by_cases h2 : HasRoom 2 s
  · have hpc : s.pc.toNat + 3 = 0x10000 := by
      obtain ⟨hw, h3⟩ := not_hasRoom.mp hr
      simp only [HasRoom, hw, reduceCtorEq, false_or] at h2
      omega
    rw [fetchOperands_imm16 h2, ← hpc]
    exact finish_noRoom (s := { s with sp := _ }) hr
  · rw [fetchOperands_imm16_noRoom h2, orRaise_error]

/-- A step that completes under GOBOY-DOC is LD SP,d16 with room for its three bytes. -/
theorem gobyDoc_step_next {s t : State} (htbl : s.cfg.table = .gobyDoc) (h : step s = .next t) :
    s.byteAt s.pc ≠ s.cfg.prefixOpcode ∧ s.byteAt s.pc = 0x31#8 ∧ HasRoom 3 s := by
  obtain ⟨hp, d, hd, -⟩ := step_next_populated h
  have hop : s.byteAt s.pc = 0x31#8 := opcode_of_gobyDoc_entry (htbl ▸ hd)
  refine ⟨hp, hop, ?_⟩
  by_contra hr
  rw [step_ldSpD16_noRoom hp hop hr] at h
  cases h

/-- Settles O51: the step is LD SP,d16 with room for its bytes, and neither the row nor the handler depends on the table. -/
theorem profileExtendsTheDocumentedCore : Obligations.ProfileExtendsTheDocumentedCore := by
  intro s t htbl h
  obtain ⟨hp, hop, hr⟩ := gobyDoc_step_next htbl h
  rw [step_ldSpD16_room hp hop hr] at h
  cases h
  exact step_ldSpD16_room (s := { s with cfg := { s.cfg with table := .sm83gk } }) hp hop hr

end Sys2Proof.Proofs.Scope
end

section
/-! PROOFS of 10_state.md. What the flags and the views hold (rules R24-R30), what creation and injection give (rules R38,
R39), and which opcode writes which part of the state (rules R23, R31, R35, R41). -/

namespace Sys2Proof.Proofs.StateRules

open Sys2Proof.Machine Sys2Proof.Safety Sys2Proof.Laws Sys2Proof.Proofs.Scope

/-! Packing the flags (rules R24, R25) -/

/-- The places of the four flags in F. -/
theorem pack_bits (f : Flags) :
    f.pack.getLsbD 7 = f.z ∧ f.pack.getLsbD 6 = f.n ∧ f.pack.getLsbD 5 = f.h ∧ f.pack.getLsbD 4 = f.c ∧
      f.pack &&& 0x0F = 0 := by
  obtain ⟨z, n, h, c⟩ := f
  revert z n h c
  decide

theorem unpack_pack (f : Flags) : Flags.unpack f.pack = f := by
  obtain ⟨hz, hn, hh, hc, -⟩ := pack_bits f
  simp only [Flags.unpack, hz, hn, hh, hc]

theorem pack_unpack (v : Byte) : (Flags.unpack v).pack = v &&& 0xF0 := by
  revert v
  decide

/-- Settles O7: the places of the flags, and the two laws of packing. -/
theorem packAndUnpackFlags : Obligations.PackAndUnpackFlags :=
  ⟨pack_bits, fun _ => rfl, pack_unpack, unpack_pack⟩

/-- Settles O3: each field is the state's own, and F is the packed flags. -/
theorem snapshotShowsEveryRegister : Obligations.SnapshotShowsEveryRegister := fun s =>
  ⟨rfl, rfl, rfl, rfl, rfl, rfl, rfl, rfl, rfl, rfl, rfl, rfl, rfl, pack_bits s.flags⟩

/-! The paired views (rules R26-R30) -/

/-- A word is its high byte and its low byte. -/
theorem toNat_eq_halves (v : Word) : v.toNat = 256 * (hiByte v).toNat + (loByte v).toNat := by
  rw [← joinBytes_toNat, joinBytes_hiByte_loByte]

@[simp] theorem setBc_bc (s : State) : s.setBc s.bc = s := by simp [State.setBc, State.bc]
@[simp] theorem setDe_de (s : State) : s.setDe s.de = s := by simp [State.setDe, State.de]
@[simp] theorem setHl_hl (s : State) : s.setHl s.hl = s := by simp [State.setHl, State.hl]

/-- Settles O8: a view joins its halves, a setter splits its argument, and the two are inverse. -/
theorem pairViewsReadAndWriteTheirHalves : Obligations.PairViewsReadAndWriteTheirHalves := fun s v =>
  ⟨⟨joinBytes_toNat s.b s.c, joinBytes_toNat s.d s.e, joinBytes_toNat s.h s.l⟩,
    ⟨hiByte v, loByte v, toNat_eq_halves v, rfl, rfl, rfl⟩,
    joinBytes_hiByte_loByte v, joinBytes_hiByte_loByte v, joinBytes_hiByte_loByte v,
    setBc_bc s, setDe_de s, setHl_hl s⟩

/-- Joining bytes commutes with the bitwise and. -/
theorem joinBytes_and (hi lo hi' lo' : Byte) :
    joinBytes hi lo &&& joinBytes hi' lo' = joinBytes (hi &&& hi') (lo &&& lo') := by
  apply BitVec.eq_of_getLsbD_eq
  intro i hi
  simp only [joinBytes, BitVec.getLsbD_and, BitVec.getLsbD_or, BitVec.getLsbD_shiftLeft, BitVec.getLsbD_setWidth]
  by_cases h : i < 8
  · simp [h, hi]
  · have hlo (b : Byte) : b.getLsbD i = false := BitVec.getLsbD_of_ge b i (by omega)
    simp [h, hlo, hi, show i - 8 < 16 by omega]

/-- The flags that a word's low byte unpacks to are bits 7-4 of the word. -/
theorem unpack_loByte (v : Word) :
    Flags.unpack (loByte v) = { z := v.getLsbD 7, n := v.getLsbD 6, h := v.getLsbD 5, c := v.getLsbD 4 } := by
  simp [Flags.unpack, loByte]

theorem hiByte_eq_ofNat (v : Word) : hiByte v = BitVec.ofNat 8 (v.toNat / 256) := by
  rw [← hiByte_toNat, BitVec.ofNat_toNat, BitVec.setWidth_eq]

theorem af_setAf (s : State) (v : Word) : (s.setAf v).af = v &&& 0xFFF0 := by
  calc (s.setAf v).af
    _ = joinBytes (hiByte v) (Flags.unpack (loByte v)).pack := rfl
    _ = joinBytes (hiByte v &&& BitVec.allOnes 8) (loByte v &&& 0xF0) := by rw [pack_unpack, BitVec.and_allOnes]
    _ = joinBytes (hiByte v) (loByte v) &&& joinBytes (BitVec.allOnes 8) 0xF0 := (joinBytes_and _ _ _ _).symm
    _ = v &&& 0xFFF0 := by rw [joinBytes_hiByte_loByte]; rfl

/-- Settles O9: the low nibble is lost in unpacking the low byte. -/
theorem afViewLosesItsLowNibble : Obligations.AfViewLosesItsLowNibble := fun s v =>
  ⟨joinBytes_toNat s.a s.f, af_setAf s v, by rw [State.setAf, unpack_loByte, hiByte_eq_ofNat]⟩

/-! Creation and injection (rules R38, R39) -/

theorem pack_noFlags : Flags.pack { z := false, n := false, h := false, c := false } = 0 := by decide

theorem joinBytes_zero : joinBytes 0 0 = 0 := by decide

/-- Settles O1: each part of a created state is zero, and reset is a creation. -/
theorem creationZeroesRegistersAndPointers : Obligations.CreationZeroesRegistersAndPointers := by
  refine ⟨fun p mem0 => ⟨fun r => ?_, rfl, rfl, rfl, rfl, pack_noFlags, joinBytes_zero, joinBytes_zero,
    joinBytes_zero, (congrArg (joinBytes 0) pack_noFlags).trans joinBytes_zero, rfl, rfl, rfl, rfl⟩, _, _, rfl⟩
  cases r <;> rfl

/-- Settles O57: injection copies each supplied value to its field. -/
theorem injectionHoldsTheSuppliedState : Obligations.InjectionHoldsTheSuppliedState := fun _ _ _ =>
  ⟨rfl, rfl, rfl, rfl, rfl, rfl, rfl, rfl, rfl, rfl, rfl, rfl, rfl, rfl, rfl⟩

/-! The opcode of the instruction that a step executes -/

/-- A handler makes an instruction when some operand bytes give it. -/
def HandlerMakes (hd : Handler) (i : Instr) : Prop :=
  match hd with
  | .implied j => i = j
  | .imm8 f => ∃ v, i = f v
  | .imm16 f => ∃ w, i = f w

theorem handlerMakes_of_fetchOperands {s : State} {base : Word} {hd : Handler} {i : Instr}
    (h : fetchOperands s base hd = .ok i) : HandlerMakes hd i := by
  cases hd with
  | implied j =>
    cases h
    exact rfl
  | imm8 f =>
    simp only [fetchOperands] at h
    split at h <;> cases h
    exact ⟨_, rfl⟩
  | imm16 f =>
    simp only [fetchOperands] at h
    split at h
    · cases h
    · split at h <;> cases h
      exact ⟨_, rfl⟩

/-- Every instruction that a row of the primary table makes is encoded with that row's opcode first. -/
theorem opcode_of_row (p : Params) : ∀ row ∈ primaryRows .sm83gk, ∀ i, HandlerMakes row.2.handler i →
    (encode p i).head? = some row.1 := by
  simp only [primaryRows, docRows, loadRows, addRows, adcRows, subRows, jumpRows, List.cons_append, List.nil_append,
    List.forall_mem_cons, List.not_mem_nil, false_imp_iff, implies_true, and_true,
    HandlerMakes, forall_eq, forall_exists_index, forall_eq_apply_imp_iff]
  and_intros <;> intros <;> rfl

/-- SM83-GK holds every row of either table (rule R4). -/
theorem primaryRows_subset (tbl : Table) : primaryRows tbl ⊆ primaryRows .sm83gk := by
  cases tbl
  · simp [primaryRows]
  · exact List.Subset.refl _

theorem mem_primaryRows {tbl : Table} {op : Byte} {d : Descriptor} (h : primaryEntry tbl op = some d) :
    (op, d) ∈ primaryRows tbl := by
  obtain ⟨before, after, hrows, -⟩ := List.lookup_eq_some_iff.mp h
  simp [hrows]

/-- A step that answers a next state executed an instruction whose first byte is the one at `pc`. -/
theorem step_next_opcode {s t : State} (h : step s = .next t) :
    ∃ i, (encode s.cfg i).head? = some (s.byteAt s.pc) ∧ exec i s = .next t := by
  obtain ⟨-, d, hd, i, hi, hx⟩ := step_next_populated h
  have hrow := primaryRows_subset _ (mem_primaryRows hd)
  exact ⟨i, opcode_of_row s.cfg _ hrow i (handlerMakes_of_fetchOperands hi), hx⟩

/-! What a step leaves (rules R31, R35, R41) -/

/-- No instruction writes the parameters. -/
theorem exec_keeps_cfg {i : Instr} {s t : State} (h : exec i s = .next t) : t.cfg = s.cfg := by
  obtain ⟨_, _, ht⟩ | ⟨_, _, ht⟩ | ⟨_, _, _, ht⟩ | ⟨q, hq, ht⟩ := exec_next h
  · rw [ht]
  · rw [ht]
  · rw [ht]
  · rw [ht, hq]

/-- Only LD SP,d16 writes the stack pointer. -/
theorem exec_sp_eq_or_ldSpD16 {i : Instr} {s t : State} (h : exec i s = .next t) :
    t.sp = s.sp ∨ ∃ w, i = .ldSpD16 w := by
  obtain ⟨w, hi, -⟩ | ⟨_, _, ht⟩ | ⟨_, _, _, ht⟩ | ⟨q, hq, ht⟩ := exec_next h
  · exact .inr ⟨w, hi⟩
  · exact .inl (by rw [ht])
  · exact .inl (by rw [ht])
  · exact .inl (by rw [ht, hq])

/-- Only the two stores write memory, and only the byte at HL. -/
theorem exec_mem_eq_or_store {i : Instr} {s t : State} (h : exec i s = .next t) :
    t.mem = s.mem ∨ ((∃ v, i = .ldIndHlD8 v) ∨ i = .ldIndHlA) ∧ ∃ v, t.mem = s.mem.write s.hl.toNat v := by
  obtain ⟨_, _, ht⟩ | ⟨v, hi, ht⟩ | ⟨_, _, _, ht⟩ | ⟨q, hq, ht⟩ := exec_next h
  · exact .inl (by rw [ht])
  · exact .inr ⟨hi.imp (fun hi => ⟨v, hi⟩) And.left, v, by rw [ht]⟩
  · exact .inl (by rw [ht])
  · exact .inl (by rw [ht, hq])

/-- Settles O46: the step is an `exec` of the same state, which writes no parameter. -/
theorem stepKeepsTheTables : Obligations.StepKeepsTheTables := by
  intro s t h
  obtain ⟨i, -, hx⟩ := step_next h
  exact exec_keeps_cfg hx

/-- Settles O48: the instruction is a store, its first byte is 0x36 or 0x77, and GOBOY-DOC populates neither. -/
theorem onlyStoresWriteMemory : Obligations.OnlyStoresWriteMemory := by
  intro s t x h hne
  obtain ⟨i, hop, hx⟩ := step_next_opcode h
  obtain hm | ⟨hi, v, hm⟩ := exec_mem_eq_or_store hx
  · exact absurd (by rw [State.byteAt, State.byteAt, hm]) hne
  have hpc : s.byteAt s.pc = 0x36 ∨ s.byteAt s.pc = 0x77 := by
    obtain ⟨d8, rfl⟩ | rfl := hi
    · exact .inl (Option.some.inj hop).symm
    · exact .inr (Option.some.inj hop).symm
  refine ⟨?_, hpc, ?_⟩
  · by_contra hxl
    refine hne ?_
    rw [State.byteAt, hm]
    exact (storesByte_write s s.hl v).2 x hxl
  · cases htbl : s.cfg.table with
    | sm83gk => rfl
    | gobyDoc =>
      rw [(gobyDoc_step_next htbl h).2.1] at hpc
      exact absurd hpc (by decide)

/-- Settles O50: the step is LD SP,d16 with room for its bytes (rule R120). -/
theorem documentedCoreWritesOnlySpAndPc : Obligations.DocumentedCoreWritesOnlySpAndPc := by
  intro s t htbl h
  obtain ⟨hp, hop, hr⟩ := gobyDoc_step_next htbl h
  rw [step_ldSpD16_room hp hop hr] at h
  cases h
  exact ⟨rfl, joinBytes_toNat _ _⟩

/-! No handler reads the stack pointer (rule R31) -/

theorem finish_withSp {n cycles : Nat} {s t : State} (h : finish n cycles s = .next t) (v : Word) :
    finish n cycles { s with sp := v } = .next { t with sp := v } := by
  obtain ⟨hr, rfl⟩ := finish_next h
  exact finish_room (s := { s with sp := v }) hr

theorem jumpAbsIf_withSp {cc : Cond} {a16 : Word} {s t : State} (h : jumpAbsIf cc a16 s = .next t) (v : Word) :
    jumpAbsIf cc a16 { s with sp := v } = .next { t with sp := v } := by
  unfold jumpAbsIf at h ⊢
  split at h
  next hc =>
    cases h
    exact if_pos hc
  next hc => exact (if_neg hc).trans (finish_withSp h v)

theorem jumpRelIf_withSp {cc : Cond} {e8 : Byte} {s t : State} (h : jumpRelIf cc e8 s = .next t) (v : Word) :
    jumpRelIf cc e8 { s with sp := v } = .next { t with sp := v } := by
  obtain ⟨next, ha, h⟩ := orRaise_next h
  simp only [jumpRelIf, ha, orRaise_ok]
  split at h
  next hc =>
    cases h
    exact if_pos hc
  next hc =>
    cases h
    exact if_neg hc

/-- Every instruction but LD SP,d16 leaves the stack pointer as it stands, and nothing else depends on it. -/
theorem exec_withSp {i : Instr} {s t : State} (hi : ∀ w, i ≠ .ldSpD16 w) (h : exec i s = .next t) (v : Word) :
    exec i { s with sp := v } = .next { t with sp := v } := by
  cases i
  case ldSpD16 w => exact absurd rfl (hi w)
  case ldIndHlD8 | ldIndHlA =>
    simp only [exec, execLdIndHlD8, execLdIndHlA, writeIndHl_eq, orRaise_ok] at h ⊢
    exact finish_withSp h v
  case ldAIndHl =>
    simp only [exec, execLdAIndHl, readIndHl_eq, orRaise_ok] at h ⊢
    exact finish_withSp h v
  case addAIndHl | adcAIndHl | subIndHl =>
    simp only [exec, execAddAIndHl, execAdcAIndHl, execSubIndHl, aluIndHl_eq] at h ⊢
    exact finish_withSp h v
  case jpA16 =>
    cases h
    rfl
  case jpNzA16 | jpZA16 | jpNcA16 | jpCA16 => exact jumpAbsIf_withSp h v
  case jrE8 =>
    obtain ⟨next, ha, h⟩ := orRaise_next h
    cases h
    simp only [exec, execJrE8, ha, orRaise_ok, jumpTo]
  case jrNzE8 | jrZE8 | jrNcE8 | jrCE8 => exact jumpRelIf_withSp h v
  case prefixed | emptyPrimary => cases h
  all_goals exact finish_withSp h v

theorem fetch_withSp (s : State) (v : Word) : fetch { s with sp := v } = fetch s := rfl

/-- A step from the same state with another stack pointer executes the same instruction. -/
theorem step_withSp {i : Instr} {s : State} (hf : fetch s = .ok i) (v : Word) :
    step { s with sp := v } = exec i { s with sp := v } := by
  rw [step, fetch_withSp, hf, orRaise_ok]

/-- Settles O47: LD SP,d16, whose first byte is 0x31, overwrites `sp` unread; every other instruction leaves it. -/
theorem onlyLdSpWritesTheStackPointer : Obligations.OnlyLdSpWritesTheStackPointer := by
  refine ⟨fun s t h hne => ?_, fun s t v h => ?_⟩
  · obtain ⟨i, hop, hx⟩ := step_next_opcode h
    obtain ⟨w, rfl⟩ := (exec_sp_eq_or_ldSpD16 hx).resolve_left hne
    exact (Option.some.inj hop).symm
  · obtain ⟨i, hf, hx⟩ := step_next h
    rw [step_withSp hf]
    by_cases hi : ∃ w, i = .ldSpD16 w
    · obtain ⟨w, rfl⟩ := hi
      exact ⟨t.sp, hx⟩
    · exact ⟨v, exec_withSp (fun w hw => hi ⟨w, hw⟩) hx v⟩

/-! The ALU opcodes (rules R23, R90) -/

/-- The three operations of the ALU (rule R95). -/
inductive AluKind where
  | add | adc | sub

def AluKind.operation : AluKind → Byte → Byte → Flags → Byte × Flags
  | .add => aluAdd
  | .adc => aluAdc
  | .sub => aluSub

/-- The operation an instruction invokes, if it is an ALU form. -/
def aluKind : Instr → Option AluKind
  | .addAB | .addAC | .addAD | .addAE | .addAH | .addAL | .addAIndHl | .addAA | .addAD8 _ => some .add
  | .adcAB | .adcAC | .adcAD | .adcAE | .adcAH | .adcAL | .adcAIndHl | .adcAA | .adcAD8 _ => some .adc
  | .subB | .subC | .subD | .subE | .subH | .subL | .subIndHl | .subA | .subD8 _ => some .sub
  | _ => none

/-- Every operation sets Z by its result. -/
theorem AluKind.operation_z (k : AluKind) (a n : Byte) (f : Flags) :
    (k.operation a n f).2.z = true ↔ (k.operation a n f).1 = 0 := by
  cases k <;> exact decide_eq_true_iff

/-- Every operation sets N by its kind. -/
theorem AluKind.operation_n (k : AluKind) (a n : Byte) (f : Flags) :
    (k.operation a n f).2.n = true ↔ k = .sub := by
  cases k <;> simp [operation, aluAdd, aluAdc, aluSub]

/-- An ALU form invokes its operation with A as first operand, stores the result to A and all flags, and advances (rule
R90). -/
theorem exec_alu {i : Instr} {k : AluKind} (hk : aluKind i = some k) (s : State) :
    ∃ n bytes cycles, exec i s = finish bytes cycles (withAlu k.operation n s) := by
  cases i
  case addAIndHl | adcAIndHl | subIndHl =>
    cases hk
    exact ⟨s.byteAt s.hl, 1, 8, aluIndHl_eq _ s⟩
  case addAB | addAC | addAD | addAE | addAH | addAL | addAA | addAD8 | adcAB | adcAC | adcAD | adcAE | adcAH | adcAL |
      adcAA | adcAD8 | subB | subC | subD | subE | subH | subL | subA | subD8 =>
    cases hk
    exact ⟨_, _, _, rfl⟩
  all_goals cases hk

theorem exec_alu_next {i : Instr} {k : AluKind} {s t : State} (hk : aluKind i = some k) (h : exec i s = .next t) :
    (t.flags.n = true ↔ k = .sub) ∧ (t.flags.z = true ↔ t.a = 0) := by
  obtain ⟨n, bytes, cycles, hx⟩ := exec_alu hk s
  rw [hx] at h
  rw [finish_frame h]
  exact ⟨k.operation_n s.a n s.flags, k.operation_z s.a n s.flags⟩

theorem finish_flags {n cycles : Nat} {s q t : State} (h : finish n cycles q = .next t) (hq : q.flags = s.flags) :
    t.flags = s.flags := by
  rw [finish_frame h, ← hq]

/-- Every instruction that is no ALU form leaves the flags. -/
theorem exec_keeps_flags {i : Instr} {s t : State} (hk : aluKind i = none) (h : exec i s = .next t) :
    t.flags = s.flags := by
  cases i
  case nop | ldSpD16 | ldBcD16 | ldDeD16 | ldHlD16 | ldBD8 | ldCD8 | ldDD8 | ldED8 | ldHD8 | ldLD8 | ldAD8 =>
    exact finish_flags h rfl
  case ldIndHlD8 | ldIndHlA =>
    simp only [exec, execLdIndHlD8, execLdIndHlA, writeIndHl_eq, orRaise_ok] at h
    exact finish_flags h rfl
  case ldAIndHl =>
    simp only [exec, execLdAIndHl, readIndHl_eq, orRaise_ok] at h
    exact finish_flags h rfl
  case jpA16 => rw [jumpTo_next h]
  case jpNzA16 | jpZA16 | jpNcA16 | jpCA16 => rw [jumpAbsIf_frame h]
  case jrE8 => rw [jrE8_frame h]
  case jrNzE8 | jrZE8 | jrNcE8 | jrCE8 => rw [jumpRelIf_frame h]
  case prefixed | emptyPrimary => cases h
  all_goals cases hk

/-- The ALU opcodes are 0x80-0x97, 0xC6, 0xCE and 0xD6 (rules R140-R148). -/
abbrev IsAluOpcode (op : Nat) : Prop := (0x80 ≤ op ∧ op ≤ 0x97) ∨ op = 0xC6 ∨ op = 0xCE ∨ op = 0xD6

/-- Those of SUB are 0x90-0x97 and 0xD6 (rules R146-R148). -/
abbrev IsSubOpcode (op : Nat) : Prop := (0x90 ≤ op ∧ op ≤ 0x97) ∨ op = 0xD6

/-- An instruction that can complete is an ALU form, and a SUB, as its first byte says. -/
theorem aluKind_of_opcode {p : Params} {i : Instr} {op : Byte} {s t : State} (hop : (encode p i).head? = some op)
    (h : exec i s = .next t) :
    ((aluKind i).isSome ↔ IsAluOpcode op.toNat) ∧ (aluKind i = some .sub ↔ IsSubOpcode op.toNat) := by
  cases i
  case prefixed | emptyPrimary => cases h
  all_goals
    cases hop
    simp only [aluKind, Option.some.injEq, reduceCtorEq]
    decide

/-- Settles O49: the first byte says whether the instruction is an ALU form, and of which operation. -/
theorem onlyAluOpcodesWriteFlags : Obligations.OnlyAluOpcodesWriteFlags := by
  intro s t h
  obtain ⟨i, hop, hx⟩ := step_next_opcode h
  obtain ⟨halu, hsub⟩ := aluKind_of_opcode hop hx
  refine ⟨fun hno => exec_keeps_flags (by simpa using mt halu.mp hno) hx, fun hyes => ?_⟩
  obtain ⟨k, hk⟩ := Option.isSome_iff_exists.mp (halu.mpr hyes)
  obtain ⟨hn, hz⟩ := exec_alu_next hk hx
  rw [hk, Option.some.injEq] at hsub
  exact ⟨hn.trans hsub, hz⟩

end Sys2Proof.Proofs.StateRules
end

section
/-! PROOFS of 20_memory.md. The canonical form of a memory (rules R46, R50), the bus and `Addr` (rules R49-R51, R56), image
loads and launches (rules R55, R57, R163, R182), the fetch of a stored byte (rule R64), and that a step which completes under
`fault` completes alike under `wrap` (rule R56). -/

namespace Sys2Proof.Proofs.MemoryRules

open Sys2Proof.Machine Sys2Proof.Safety Sys2Proof.Laws Sys2Proof.Proofs.StateRules

/-! The canonical form (rules R46, R50) -/

@[simp] theorem read_head (cell : Host.Cell) (m : Memory) : Memory.read (cell :: m) cell.1 = cell.2 :=
  (read_cons cell.1 cell.2 m cell.1).trans (if_pos rfl)

theorem read_not_listed {m : Memory} {x : Nat} (h : ∀ cell ∈ m, cell.1 ≠ x) : m.read x = 0 := by
  induction m with
  | nil => rfl
  | cons cell rest ih =>
    obtain ⟨hhead, hrest⟩ := List.forall_mem_cons.mp h
    rw [read_cons, if_neg hhead.symm, ih hrest]

/-- A canonical memory reads 0x00 below its first cell. -/
theorem head_le_of_read_ne_zero {cell : Host.Cell} {m : Memory} {x : Nat} (hwf : Memory.wf (cell :: m) = true)
    (hx : Memory.read (cell :: m) x ≠ 0) : cell.1 ≤ x := by
  obtain ⟨-, -, hlt, -⟩ := (wf_cons cell m).mp hwf
  by_contra hc
  refine hx (read_not_listed (List.forall_mem_cons.mpr ⟨by omega, fun other ho => ?_⟩))
  have := hlt other ho
  omega

/-- Above the address space a canonical memory reads 0x00. -/
theorem read_eq_zero_of_wf {m : Memory} {x : Nat} (hwf : m.wf = true) (hx : 0x10000 ≤ x) : m.read x = 0 := by
  induction m with
  | nil => rfl
  | cons cell rest ih =>
    obtain ⟨haddr, -, -, hrest⟩ := (wf_cons cell rest).mp hwf
    rw [read_cons, if_neg (by omega), ih hrest]

/-- Canonical memories with the same first cell that read alike still do so without it. -/
theorem read_rest_eq {cell : Host.Cell} {m m' : Memory} (hm : Memory.wf (cell :: m) = true)
    (hm' : Memory.wf (cell :: m') = true) (h : ∀ x, Memory.read (cell :: m) x = Memory.read (cell :: m') x) (x : Nat) :
    m.read x = m'.read x := by
  obtain ⟨-, -, hlt, -⟩ := (wf_cons cell m).mp hm
  obtain ⟨-, -, hlt', -⟩ := (wf_cons cell m').mp hm'
  by_cases hx : x = cell.1
  · subst hx
    rw [read_not_listed fun other ho => (hlt other ho).ne', read_not_listed fun other ho => (hlt' other ho).ne']
  · have hread := h x
    rwa [read_cons, read_cons, if_neg hx, if_neg hx] at hread

/-- Canonical memories that read alike at every number are the same list: their first cells are each the first byte that is
not 0x00, and without them they still read alike. -/
theorem eq_of_read_eq {m m' : Memory} (hm : m.wf = true) (hm' : m'.wf = true) (h : ∀ x, m.read x = m'.read x) :
    m = m' := by
  induction m generalizing m' with
  | nil =>
    cases m' with
    | nil => rfl
    | cons cell' rest' =>
      obtain ⟨-, hne', -, -⟩ := (wf_cons cell' rest').mp hm'
      exact absurd (by simpa using (h cell'.1).symm) hne'
  | cons cell rest ih =>
    obtain ⟨-, hne, -, hrest⟩ := (wf_cons cell rest).mp hm
    cases m' with
    | nil => exact absurd (by simpa using h cell.1) hne
    | cons cell' rest' =>
      obtain ⟨-, hne', -, hrest'⟩ := (wf_cons cell' rest').mp hm'
      have haddr : cell.1 = cell'.1 := Nat.le_antisymm
        (head_le_of_read_ne_zero hm (by simpa [h cell'.1] using hne'))
        (head_le_of_read_ne_zero hm' (by simpa [← h cell.1] using hne))
      have hbyte : cell.2 = cell'.2 := by
        rw [← read_head cell rest, h, haddr, read_head]
      obtain rfl : cell = cell' := Prod.ext haddr hbyte
      rw [ih hrest hrest' (read_rest_eq hm hm' h)]

/-- Settles O16: a canonical memory lists nothing above 0xFFFF, so reads at the 16-bit addresses are all of its reads. -/
theorem memoryKeepsCanonicalForm : Obligations.MemoryKeepsCanonicalForm := by
  refine ⟨wf_busWrite, fun m m' hm hm' h => eq_of_read_eq hm hm' fun x => ?_⟩
  by_cases hx : x < 0x10000
  · simpa [Nat.mod_eq_of_lt hx] using h (BitVec.ofNat 16 x)
  · rw [read_eq_zero_of_wf hm (by omega), read_eq_zero_of_wf hm' (by omega)]

/-! The bus and `Addr` (rules R49-R51, R56) -/

/-- Settles O14: the bounds check, then the byte array. -/
theorem busAccessesOneByteInRange : Obligations.BusAccessesOneByteInRange := by
  refine fun m addr v => ⟨fun h => ⟨if_pos h, m.write addr v, if_pos h, ?_, fun x hx => ?_⟩, fun h => ⟨?_, ?_⟩⟩
  · rw [read_write, if_pos rfl]
  · rw [read_write, if_neg hx]
  · exact if_neg (by omega)
  · exact if_neg (by omega)

/-- Settles O15: the sum as a word, and what it is past 0xFFFF. -/
theorem addrWrapsOrRaises : Obligations.AddrWrapsOrRaises := by
  intro mode base k hk
  have hk3 : k ≤ 3 := by
    simp only [List.mem_cons, List.not_mem_nil, or_false] at hk
    omega
  have hsum : (base + BitVec.ofNat 16 k).toNat = (base.toNat + k) % 0x10000 := by simp
  refine ⟨fun h => ⟨base + BitVec.ofNat 16 k, ?_, ?_⟩, fun h => ⟨⟨base + BitVec.ofNat 16 k, ?_, ?_⟩, ?_⟩⟩
  · rw [addrAfter_eq, if_pos (.inr h)]
  · omega
  · rw [addrAfter_eq, if_pos (.inl rfl)]
  · have := base.isLt
    omega
  · rw [addrAfter_eq, if_neg (by simpa using h)]

/-! Bytes at consecutive addresses (rules R55, R57) -/

theorem read_writeBytes_inside (m : Memory) (origin : Nat) {bytes : List Byte} {i : Nat} (hi : i < bytes.length) :
    (m.writeBytes origin bytes).read (origin + i) = bytes[i] := by
  simp [read_writeBytes, hi]

theorem read_writeBytes_outside (m : Memory) {origin x : Nat} {bytes : List Byte}
    (hx : x < origin ∨ origin + bytes.length ≤ x) : (m.writeBytes origin bytes).read x = m.read x := by
  rw [read_writeBytes]
  split
  · rw [List.getElem?_eq_none (by omega), Option.getD_none]
  · rfl

/-- The address that a failed image load reports lies past the top (rule R162). -/
theorem loadFailAddr_outOfRange (origin length : Nat) : 0xFFFF < 0x10000 + Config.loadFailExcess origin length := by
  omega

/-- Settles O4: the bounds check, then the bytes at consecutive addresses. -/
theorem loadImageCopiesOrFails : Obligations.LoadImageCopiesOrFails := fun m bytes origin =>
  ⟨fun h => ⟨m.writeBytes origin.toNat bytes, loadImage_fits m h, fun _ hi => read_writeBytes_inside m _ hi,
      fun _ hx => read_writeBytes_outside m hx⟩,
    fun h => ⟨_, loadFailAddr_outOfRange _ _, loadImage_too_long m h⟩⟩

/-- Settles O5: the array is written from address 0 into the empty memory, and ends at the top. -/
theorem anyByteArrayIsAMemory : Obligations.AnyByteArrayIsAMemory := fun bytes hlen =>
  ⟨wf_writeBytes bytes [] 0 rfl (by omega), fun i hi => by
    simpa [Memory.ofBytes] using read_writeBytes_inside [] 0 hi⟩

/-! Launches (rules R163, R182) -/

/-- Images load exactly when the first one does and the others load after it. -/
theorem loadImages_cons_ok {s t : State} {img : Image} {rest : List Image} :
    loadImages s (img :: rest) = .ok t ↔
      ∃ bytes, (img.source = .read bytes ∧ img.origin.toNat + bytes.length ≤ 0x10000) ∧
        loadImages { s with mem := s.mem.writeBytes img.origin.toNat bytes } rest = .ok t := by
  obtain ⟨source, origin⟩ := img
  cases source with
  | failed why => simp [loadImages_failed]
  | read bytes =>
    by_cases hfit : origin.toNat + bytes.length ≤ 0x10000
    · simp [loadImages_fits s rest hfit, hfit]
    · simp [loadImages_too_long s rest (Nat.lt_of_not_le hfit), hfit]

/-- Images load exactly when every one of them was read and ends at or below 0xFFFF (rules R55, R163). -/
theorem loadImages_ok_iff (s : State) (images : List Image) :
    (∃ t, loadImages s images = .ok t) ↔
      ∀ img ∈ images, ∃ bytes, img.source = .read bytes ∧ img.origin.toNat + bytes.length ≤ 0x10000 := by
  induction images generalizing s with
  | nil => simp [loadImages]
  | cons img rest ih =>
    simp only [loadImages_cons_ok, List.forall_mem_cons]
    rw [exists_comm]
    simp only [exists_and_left, ih, exists_and_right]

/-- After images that load, the others load from the state they gave. -/
theorem loadImages_append {s t : State} {before : List Image} (h : loadImages s before = .ok t) (after : List Image) :
    loadImages s (before ++ after) = loadImages t after := by
  induction before generalizing s with
  | nil =>
    cases h
    rfl
  | cons img rest ih =>
    obtain ⟨source, origin⟩ := img
    obtain ⟨bytes, ⟨rfl, hfit⟩, hrest⟩ := loadImages_cons_ok.mp h
    rw [List.cons_append, loadImages_fits s _ hfit, ih hrest]

/-- Loading images writes memory only. -/
theorem loadImages_frame {s t : State} {images : List Image} (h : loadImages s images = .ok t) :
    t = { s with mem := t.mem } := by
  induction images generalizing s with
  | nil =>
    cases h
    rfl
  | cons img rest ih =>
    obtain ⟨_, -, hrest⟩ := loadImages_cons_ok.mp h
    rw [ih hrest]

/-- Settles O6: what loading the images does, from the core that the launch creates. -/
theorem bootNeedsEveryImage : Obligations.BootNeedsEveryImage := by
  intro p mem0 init
  simp only [boot_eq]
  refine ⟨loadImages_ok_iff _, fun before after why origin s h => ?_, fun images s h => loadImages_frame h⟩
  rw [loadImages_append h, loadImages_failed]

/-- A launch whose first image fits is that of the other images from the memory the first is copied into. -/
theorem boot_fits (p : Params) (mem0 : Memory) (init : Option InitialState) {bytes : List Byte} {origin : Word}
    (rest : List Image) (h : origin.toNat + bytes.length ≤ 0x10000) :
    boot p mem0 init ({ source := .read bytes, origin := origin } :: rest) =
      boot p (mem0.writeBytes origin.toNat bytes) init rest := by
  cases init <;> exact loadImages_fits _ rest h

/-- Settles O58: the launch by its first image. -/
theorem bootLoadsItsImages : Obligations.BootLoadsItsImages := by
  refine fun p mem0 init => ⟨rfl, fun _ => rfl, fun bytes origin rest h => ?_, fun bytes origin rest h => ?_,
    fun why origin rest => ?_⟩
  · exact ⟨_, boot_fits p mem0 init rest h, fun k hk => read_writeBytes_inside mem0 _ hk,
      fun x hx => read_writeBytes_outside mem0 hx⟩
  · exact ⟨_, loadFailAddr_outOfRange _ _, by rw [boot_eq, loadImages_too_long _ rest h]⟩
  · rw [boot_eq, loadImages_failed]

/-! The fetch of a stored byte (rule R64) -/

/-- A step at LD (HL),A that completes stores A at the HL of the state before (rule R134). -/
theorem step_ldIndHlA_next {s t : State} (hf : FetchesProfile 0x77 s) (h : step s = .next t) :
    t = { s with mem := s.mem.write s.hl.toNat s.a, pc := t.pc, report := t.report } := by
  rw [step_profile (d := ⟨"LD__HL__A", .implied .ldIndHlA, 8, none⟩) hf rfl, fetchOperands_implied, orRaise_ok] at h
  simp only [exec, execLdIndHlA, writeIndHl_eq, orRaise_ok] at h
  exact finish_frame h

/-- Settles O54: the byte at the next `pc` is A, an empty entry. -/
theorem nextFetchSeesTheStoredByte : Obligations.NextFetchSeesTheStoredByte := by
  intro s t hf h hpc hprefix hempty
  have ht := step_ldIndHlA_next hf h
  have hcfg : t.cfg = s.cfg := by rw [ht]
  have hop : t.byteAt t.pc = s.a := by
    rw [← hpc, State.byteAt, ht]
    exact (storesByte_write s s.hl s.a).1
  rw [step_empty (by rwa [hop, hcfg]) (by rwa [primaryEntry_none, hop, hcfg]), hop]

/-! A completed step under `wrap` (rule R56) -/

/-- The same state under `ADDR_WRAP = wrap`. -/
def underWrap (s : State) : State := { s with cfg := { s.cfg with addrWrap := .wrap } }

/-- An address that raises nothing is the same under `wrap`. -/
theorem addrAfter_wrap_of_ok {mode : AddrWrap} {base next : Word} {k : Nat} (h : addrAfter mode base k = .ok next) :
    addrAfter .wrap base k = .ok next := by
  rw [addrAfter_eq] at h
  split at h <;> cases h
  rw [addrAfter_eq, if_pos (.inl rfl)]

theorem readAfter_underWrap {s : State} {base : Word} {k : Nat} {v : Byte} (h : readAfter s base k = .ok v) :
    readAfter (underWrap s) base k = .ok v := by
  unfold readAfter at h ⊢
  split at h
  next => cases h
  next addr ha =>
    simp only [underWrap, addrAfter_wrap_of_ok ha]
    exact h

theorem fetchOperands_underWrap {s : State} {base : Word} {hd : Handler} {i : Instr}
    (h : fetchOperands s base hd = .ok i) : fetchOperands (underWrap s) base hd = .ok i := by
  cases hd with
  | implied j => exact h
  | imm8 f =>
    simp only [fetchOperands] at h ⊢
    split at h
    next => cases h
    next v hv => simpa only [readAfter_underWrap hv] using h
  | imm16 f =>
    simp only [fetchOperands] at h ⊢
    split at h
    next => cases h
    next lo hlo =>
      split at h
      next => cases h
      next hi hhi => simpa only [readAfter_underWrap hlo, readAfter_underWrap hhi] using h

theorem finish_underWrap {n cycles : Nat} {s t : State} (h : finish n cycles s = .next t) :
    finish n cycles (underWrap s) = .next (underWrap t) := by
  obtain ⟨-, rfl⟩ := finish_next h
  exact finish_room (.inl rfl)

theorem jumpAbsIf_underWrap {cc : Cond} {a16 : Word} {s t : State} (h : jumpAbsIf cc a16 s = .next t) :
    jumpAbsIf cc a16 (underWrap s) = .next (underWrap t) := by
  unfold jumpAbsIf at h ⊢
  split at h
  next hc =>
    cases h
    exact if_pos hc
  next hc => exact (if_neg hc).trans (finish_underWrap h)

theorem jumpRelIf_underWrap {cc : Cond} {e8 : Byte} {s t : State} (h : jumpRelIf cc e8 s = .next t) :
    jumpRelIf cc e8 (underWrap s) = .next (underWrap t) := by
  obtain ⟨next, ha, h⟩ := orRaise_next h
  simp only [jumpRelIf, underWrap, addrAfter_wrap_of_ok ha, orRaise_ok]
  split at h
  next hc =>
    cases h
    exact if_pos hc
  next hc =>
    cases h
    exact if_neg hc

/-- No handler looks at `ADDR_WRAP` but for an address that raises nothing. -/
theorem exec_underWrap {i : Instr} {s t : State} (h : exec i s = .next t) :
    exec i (underWrap s) = .next (underWrap t) := by
  cases i
  case ldIndHlD8 | ldIndHlA =>
    simp only [exec, execLdIndHlD8, execLdIndHlA, writeIndHl_eq, orRaise_ok] at h ⊢
    exact finish_underWrap h
  case ldAIndHl =>
    simp only [exec, execLdAIndHl, readIndHl_eq, orRaise_ok] at h ⊢
    exact finish_underWrap h
  case addAIndHl | adcAIndHl | subIndHl =>
    simp only [exec, execAddAIndHl, execAdcAIndHl, execSubIndHl, aluIndHl_eq] at h ⊢
    exact finish_underWrap h
  case jpA16 =>
    cases h
    rfl
  case jpNzA16 | jpZA16 | jpNcA16 | jpCA16 => exact jumpAbsIf_underWrap h
  case jrE8 =>
    obtain ⟨next, ha, h⟩ := orRaise_next h
    cases h
    simp only [exec, execJrE8, underWrap, addrAfter_wrap_of_ok ha, orRaise_ok, jumpTo]
  case jrNzE8 | jrZE8 | jrNcE8 | jrCE8 => exact jumpRelIf_underWrap h
  case prefixed | emptyPrimary => cases h
  all_goals exact finish_underWrap h

/-- Settles O52: the same row, operands and handler, none of whose addresses raised. -/
theorem wrapAgreesWhereFaultCompletes : Obligations.WrapAgreesWhereFaultCompletes := by
  intro s t _ h
  obtain ⟨hp, d, hd, i, hi, hx⟩ := step_next_populated h
  calc step (underWrap s)
    _ = orRaise (fetchOperands (underWrap s) s.pc d.handler) fun i => exec i (underWrap s) := step_populated hp hd
    _ = exec i (underWrap s) := by rw [fetchOperands_underWrap hi, orRaise_ok]
    _ = .next (underWrap t) := exec_underWrap hx

end Sys2Proof.Proofs.MemoryRules
end

section
/-! PROOFS of 30_encoding.md. `decode` and `encode` are inverse (rules R70-R79, R82, R83), the table of GOBOY-DOC (rule R80), and
the invariant that PREFIX_OPCODE is no populated opcode (rule R83). -/

namespace Sys2Proof.Proofs.Encoding

open Sys2Proof.Machine Sys2Proof.Safety Sys2Proof.Laws Sys2Proof.Proofs.Scope Sys2Proof.Proofs.StateRules

/-! What the decoder reads, by the first byte (rules R82, R83, R102) -/

theorem decode_prefixed (p : Params) (xx : Byte) (rest : List Byte) :
    decode p (p.prefixOpcode :: xx :: rest) = .ok (.prefixed xx, rest) := if_pos rfl

theorem decode_emptyEntry {p : Params} {op : Byte} (hp : op ≠ p.prefixOpcode)
    (hd : primaryEntry p.table op = none) (rest : List Byte) :
    decode p (op :: rest) = .ok (.emptyPrimary op, rest) := by
  simp only [decode, if_neg hp, hd]

theorem decode_row {p : Params} {op : Byte} {d : Descriptor} (hp : op ≠ p.prefixOpcode)
    (hd : primaryEntry p.table op = some d) (rest : List Byte) :
    decode p (op :: rest) = d.handler.decode rest := by
  simp only [decode, if_neg hp, hd]

/-- An opcode with a descriptor is not PREFIX_OPCODE (rule R83). -/
theorem ne_prefix_of_entry {p : Params} {op : Byte} {d : Descriptor} (hw : p.wf = true)
    (hd : primaryEntry p.table op = some d) : op ≠ p.prefixOpcode := by
  refine ne_prefix_of_populated hw ?_
  by_contra hop
  rw [(primaryEntry_none p.table op).mpr hop] at hd
  cases hd

/-! Decoding an encoding -/

/-- The two operand bytes of a word, low byte first, make the word again (rule R74). -/
theorem decode_imm16_wordBytes (f : Word → Instr) (w : Word) (rest : List Byte) :
    (Handler.imm16 f).decode (loByte w :: hiByte w :: rest) = .ok (f w, rest) := by
  rw [Handler.decode, joinBytes_hiByte_loByte]

/-- Under SM83-GK an opcode is dispatched by its profile row. -/
theorem decode_profileRow {p : Params} {op : Byte} {d : Descriptor} (hw : p.wf = true)
    (ht : (p.table == .sm83gk) = true) (hd : primaryEntry .sm83gk op = some d) (rest : List Byte) :
    decode p (op :: rest) = d.handler.decode rest := by
  rw [← eq_of_beq ht] at hd
  exact decode_row (ne_prefix_of_entry hw hd) hd rest

/-- Settles O18: the opcode that the fields give selects the instruction's own row, whose handler reads the operands back. -/
theorem decodeReadsBackEveryEncoding : Obligations.DecodeReadsBackEveryEncoding := by
  intro p i rest hw hi
  cases i
  case prefixed xx => exact decode_prefixed p xx rest
  case emptyPrimary op =>
    obtain ⟨hp, hop⟩ : op ≠ p.prefixOpcode ∧ op ∉ p.table.populated := by simpa [Instr.wf] using hi
    exact decode_emptyEntry hp ((primaryEntry_none p.table op).mpr hop) rest
  case ldSpD16 w =>
    have hd := primaryEntry_ldSpD16 p.table
    exact (decode_row (ne_prefix_of_entry hw hd) hd _).trans (decode_imm16_wordBytes _ w rest)
  case ldBcD16 w | ldDeD16 w | ldHlD16 w | jpA16 w | jpNzA16 w | jpZA16 w | jpNcA16 w | jpCA16 w =>
    exact (decode_profileRow hw hi rfl _).trans (decode_imm16_wordBytes _ w rest)
  all_goals exact (decode_profileRow hw hi rfl _).trans rfl

/-! Encoding what was decoded -/

/-- Each instruction a handler can make is well formed, and is encoded as the opcode with its operand bytes (rules R71, R74). -/
def MakesEncodingsOf (p : Params) (op : Byte) : Handler → Prop
  | .implied i => i.wf p = true ∧ encode p i = [op]
  | .imm8 f => ∀ v, (f v).wf p = true ∧ encode p (f v) = [op, v]
  | .imm16 f => ∀ w, (f w).wf p = true ∧ encode p (f w) = [op, loByte w, hiByte w]

/-- The opcode map of rules R80 and R81, row by row, against the fields of rules R78 and R79. -/
theorem row_makesEncodingsOf (p : Params) : ∀ row ∈ primaryRows p.table, MakesEncodingsOf p row.1 row.2.handler := by
  obtain ⟨_ | _, prefixOpcode, addrWrap⟩ := p <;>
    simp only [primaryRows, docRows, loadRows, addRows, adcRows, subRows, jumpRows, List.cons_append, List.nil_append,
      List.forall_mem_cons, List.not_mem_nil, false_imp_iff, implies_true, and_true, MakesEncodingsOf, forall_and] <;>
    and_intros <;> intros <;> rfl

/-- What a handler reads after its opcode is a well-formed instruction, encoded as the bytes read. -/
theorem encode_of_handlerDecode {p : Params} {op : Byte} {hd : Handler} {bytes rest : List Byte} {i : Instr}
    (hm : MakesEncodingsOf p op hd) (h : hd.decode bytes = .ok (i, rest)) :
    i.wf p = true ∧ encode p i ++ rest = op :: bytes := by
  cases hd with
  | implied j =>
    cases h
    exact hm.imp_right fun he => by rw [he, List.singleton_append]
  | imm8 f =>
    cases bytes with
    | nil => cases h
    | cons v bytes =>
      cases h
      exact (hm v).imp_right fun he => by rw [he, List.cons_append, List.singleton_append]
  | imm16 f =>
    match bytes, h with
    | lo :: hi :: bytes, h =>
      cases h
      refine (hm (joinBytes hi lo)).imp_right fun he => ?_
      rw [he, hiByte_joinBytes, loByte_joinBytes, List.cons_append, List.cons_append, List.singleton_append]

/-- Settles O19: by the first byte, a pair, an empty entry or a row of the table. -/
theorem encodeGivesBackDecodedBytes : Obligations.EncodeGivesBackDecodedBytes := by
  intro p bytes rest i _ h
  match bytes with
  | [] => cases h
  | op :: bytes =>
    by_cases hp : op = p.prefixOpcode
    · subst hp
      match bytes with
      | [] => rw [decode, if_pos rfl] at h; cases h
      | xx :: bytes =>
        rw [decode_prefixed] at h
        cases h
        exact ⟨rfl, rfl⟩
    cases hd : primaryEntry p.table op with
    | none =>
      rw [decode_emptyEntry hp hd] at h
      cases h
      exact ⟨by simpa [Instr.wf, hp] using (primaryEntry_none p.table op).mp hd, rfl⟩
    | some d =>
      rw [decode_row hp hd] at h
      exact encode_of_handlerDecode (row_makesEncodingsOf p _ (mem_primaryRows hd)) h

/-- Settles O17: each word's first byte, PREFIX_OPCODE or a table index, and its operands. -/
theorem specWordsDecode : Obligations.SpecWordsDecode := ⟨rfl, rfl, rfl, rfl, rfl, rfl, rfl, rfl⟩

/-! The documented table (rules R80, R84) -/

/-- Settles O20: the one row of GOBOY-DOC is that of LD SP,d16. -/
theorem documentedTableHoldsOneRow : Obligations.DocumentedTableHoldsOneRow := by
  refine ⟨fun op => Option.isSome_iff_exists.trans ⟨fun ⟨_, hd⟩ => opcode_of_gobyDoc_entry hd, ?_⟩, fun op d hd => ?_,
    fun _ _ => rfl⟩
  · rintro rfl
    exact ⟨_, primaryEntry_ldSpD16 .gobyDoc⟩
  · obtain rfl := opcode_of_gobyDoc_entry hd
    rw [primaryEntry_ldSpD16] at hd
    cases hd
    exact ⟨rfl, rfl, rfl, rfl⟩

/-! The invariant (rules R46, R83) -/

/-- No instruction takes memory out of its canonical form: a store is at HL, which is in range (rule R48). -/
theorem exec_keeps_memWf {i : Instr} {s t : State} (hm : s.mem.wf = true) (h : exec i s = .next t) :
    t.mem.wf = true := by
  obtain ht | ⟨-, v, ht⟩ := exec_mem_eq_or_store h
  · rwa [ht]
  · rw [ht]
    exact wf_write s.mem _ v hm s.hl.isLt

/-- Settles O45: the step is an `exec` of the same state, which keeps the form of memory and the parameters. -/
theorem stepKeepsTheInvariant : Obligations.StepKeepsTheInvariant := by
  rintro s t ⟨hmem, hcfg⟩ h
  obtain ⟨i, -, hx⟩ := step_next h
  exact ⟨exec_keeps_memWf hmem hx, by rwa [exec_keeps_cfg hx]⟩

/-- Settles O2: creation and injection hold the memory and the parameters they are given. -/
theorem invariantHoldsAtCreation : Obligations.InvariantHoldsAtCreation :=
  ⟨⟨wf_reset, by decide⟩, fun _ _ hp hm => ⟨hm, hp⟩, fun _ _ _ hp hm => ⟨hm, hp⟩⟩

end Sys2Proof.Proofs.Encoding
end

section
/-! PROOFS of 40_alu.md. ADC, and ADD as ADC without the carry (rules R91, R92); the result of SUB and its borrows (rule
R93); and the laws that follow from the three (rule R96). -/

namespace Sys2Proof.Proofs.Alu

open Sys2Proof.Machine Sys2Proof.Proofs.StateRules

/-! The three operations (rules R91-R93) -/

theorem lowNibble_toNat (b : Byte) : (b &&& 0xF).toNat = b.toNat % 16 :=
  (BitVec.toNat_and b 0xF).trans (Nat.and_two_pow_sub_one_eq_mod b.toNat 4)

theorem aluAdc_toNat (a n : Byte) (f : Flags) :
    (aluAdc a n f).1.toNat = (a.toNat + n.toNat + f.c.toNat) % 256 := by
  simp only [aluAdc, BitVec.toNat_ofNat, Nat.reducePow, Nat.mod_mod]

theorem aluAdc_h (a n : Byte) (f : Flags) :
    (aluAdc a n f).2.h = true ↔ 0xF < a.toNat % 16 + n.toNat % 16 + f.c.toNat := by
  simp only [aluAdc, lowNibble_toNat, decide_eq_true_iff, gt_iff_lt]

theorem aluAdc_c (a n : Byte) (f : Flags) : (aluAdc a n f).2.c = true ↔ 255 < a.toNat + n.toNat + f.c.toNat :=
  decide_eq_true_iff

/-- ADD is ADC with C clear, whatever the incoming flags (rule R92). -/
theorem aluAdd_eq_aluAdc (a n : Byte) (f : Flags) : aluAdd a n f = aluAdc a n { f with c := false } := rfl

theorem aluSub_toNat (a n : Byte) (f : Flags) :
    ((aluSub a n f).1.toNat : Int) = ((a.toNat : Int) - (n.toNat : Int)) % 256 := by
  rw [aluSub, BitVec.toNat_ofInt]
  exact Int.toNat_of_nonneg (Int.emod_nonneg _ (by decide))

theorem aluSub_h (a n : Byte) (f : Flags) : (aluSub a n f).2.h = true ↔ a.toNat % 16 < n.toNat % 16 := by
  simp only [aluSub, lowNibble_toNat, decide_eq_true_iff]

theorem aluSub_c (a n : Byte) (f : Flags) : (aluSub a n f).2.c = true ↔ a.toNat < n.toNat := decide_eq_true_iff

/-- Settles O11: each flag by its own rule, Z as for every operation by the result. -/
theorem adcComputesSumAndFlags : Obligations.AdcComputesSumAndFlags := by
  intro a n f
  have hcin : (if f.c then 1 else 0) = f.c.toNat := by cases f.c <;> rfl
  have hz : (aluAdc a n f).2.z = true ↔ (a.toNat + n.toNat + f.c.toNat) % 256 = 0 := by
    rw [← aluAdc_toNat]
    exact (AluKind.operation_z .adc a n f).trans BitVec.toNat_inj.symm
  simp only [hcin]
  exact ⟨aluAdc_toNat a n f, hz, rfl, aluAdc_h a n f, aluAdc_c a n f⟩

/-- Settles O10: ADD is ADC with C clear. -/
theorem addComputesSumAndFlags : Obligations.AddComputesSumAndFlags := by
  intro a n f
  rw [aluAdd_eq_aluAdc]
  exact adcComputesSumAndFlags a n { f with c := false }

/-- Settles O12: the difference modulo 256 is zero only for equal bytes, as it is above -256 and below 256. -/
theorem subComputesDifferenceAndFlags : Obligations.SubComputesDifferenceAndFlags := by
  intro a n f
  have hr := aluSub_toNat a n f
  have hz : (aluSub a n f).2.z = true ↔ a = n := by
    calc (aluSub a n f).2.z = true
      _ ↔ (aluSub a n f).1.toNat = 0 := (AluKind.operation_z .sub a n f).trans BitVec.toNat_inj.symm
      _ ↔ a.toNat = n.toNat := by omega
      _ ↔ a = n := BitVec.toNat_inj
  exact ⟨hr, hz, rfl, aluSub_h a n f, aluSub_c a n f⟩

/-! The laws of the flags (rule R96) -/

/-- Carry and result of ADC together are the exact sum: the carry is its ninth bit. -/
theorem aluAdc_exact (a n : Byte) (f : Flags) :
    256 * (aluAdc a n f).2.c.toNat + (aluAdc a n f).1.toNat = a.toNat + n.toNat + f.c.toNat := by
  have hr := aluAdc_toNat a n f
  have hc := aluAdc_c a n f
  have hcin := f.c.toNat_le
  rw [← Bool.toNat_eq_one] at hc
  have hcout := (aluAdc a n f).2.c.toNat_le
  omega

/-- Result and borrow of SUB together are the exact difference: a borrow stands for -256. -/
theorem aluSub_exact (a n : Byte) (f : Flags) :
    ((aluSub a n f).1.toNat : Int) - 256 * ((aluSub a n f).2.c.toNat : Int) = (a.toNat : Int) - (n.toNat : Int) := by
  have hr := aluSub_toNat a n f
  have hc := aluSub_c a n f
  rw [← Bool.toNat_eq_one] at hc
  have hborrow := (aluSub a n f).2.c.toNat_le
  omega

theorem aluAdd_exact (a n : Byte) (f : Flags) :
    256 * (aluAdd a n f).2.c.toNat + (aluAdd a n f).1.toNat = a.toNat + n.toNat := by
  rw [aluAdd_eq_aluAdc]
  exact aluAdc_exact a n { f with c := false }

/-! The carry as a comparison of the result with `a` -/

theorem aluAdc_carry_iff (a n : Byte) (f : Flags) :
    (aluAdc a n f).2.c = true ↔ (aluAdc a n f).1 < a ∨ ((aluAdc a n f).1 = a ∧ f.c = true) := by
  have hsum := aluAdc_exact a n f
  have hc := (aluAdc a n f).2.c.toNat_le
  have hcin := f.c.toNat_le
  rw [← Bool.toNat_eq_one, ← Bool.toNat_eq_one, BitVec.lt_def, ← BitVec.toNat_inj]
  omega

theorem aluAdd_carry_iff (a n : Byte) (f : Flags) : (aluAdd a n f).2.c = true ↔ (aluAdd a n f).1 < a := by
  rw [aluAdd_eq_aluAdc]
  simpa using aluAdc_carry_iff a n { f with c := false }

theorem aluSub_carry_iff (a n : Byte) (f : Flags) : (aluSub a n f).2.c = true ↔ a < (aluSub a n f).1 := by
  have hdiff := aluSub_exact a n f
  have hc := (aluSub a n f).2.c.toNat_le
  rw [← Bool.toNat_eq_one, BitVec.lt_def]
  omega

/-- Nothing is below zero, nor a low nibble below that of zero. -/
theorem aluSub_zero_borrows_nothing (a : Byte) (f : Flags) :
    (aluSub a 0 f).2.c = false ∧ (aluSub a 0 f).2.h = false := by
  simp only [← Bool.not_eq_true, aluSub_c, aluSub_h]
  exact ⟨Nat.not_lt_zero _, Nat.not_lt_zero _⟩

/-- Settles O13: the exact sums and difference, the comparisons that follow from them, and ADD as ADC with C clear. -/
theorem flagLawsOfTheAlu : Obligations.FlagLawsOfTheAlu := by
  intro a n f
  refine ⟨aluAdd_exact a n f, aluAdc_exact a n f, aluSub_exact a n f, aluAdd_carry_iff a n f, aluAdc_carry_iff a n f,
    aluSub_carry_iff a n f, ?_, ?_⟩
  · rintro rfl
    exact aluSub_zero_borrows_nothing a f
  · intro hc
    rw [aluAdd_eq_aluAdc, ← hc]

end Sys2Proof.Proofs.Alu
end

section
/-! PROOFS of 41_execution_core.md. A step runs the instruction its bytes decode to (rules R70, R102), what it reports and which
errors it raises (rules R104, R105, R108, R109, R112), what each instruction leaves unchanged (rule R101), and what a run comes
to (rule R111). -/

namespace Sys2Proof.Proofs.ExecutionCore

open Sys2Proof.Machine Sys2Proof.Safety Sys2Proof.Laws Sys2Proof.Proofs.StateRules Sys2Proof.Proofs.MemoryRules
  Sys2Proof.Proofs.Encoding

/-! The step call (rules R109, R112) -/

theorem stepCall_next {s t : State} (h : step s = .next t) (errCycles : Nat) :
    stepCall errCycles s = { cycles := t.report, result := .ok, state := t } := by
  rw [stepCall, h]

theorem stepCall_fault {s : State} {f : Fault} (h : step s = .fault f) (errCycles : Nat) :
    stepCall errCycles s = { cycles := errCycles, result := f.result, state := s } := by
  rw [stepCall, h]

theorem result_ne_ok (f : Fault) : f.result ≠ .ok := by
  cases f <;> exact nofun

theorem step_not_refused (s : State) (r : Refusal) : step s ≠ .refused r := by
  intro h
  obtain ⟨i, -, hx⟩ := orRaise_refused h
  exact exec_not_refused i s r hx

/-- Settles O55: by the outcome of the step, which the state alone determines. -/
theorem errorsCommitNothing : Obligations.ErrorsCommitNothing := by
  intro s errCycles again
  cases hs : step s with
  | next t =>
    rw [stepCall_next hs]
    exact ⟨fun _ => ⟨rfl, rfl⟩, fun hne => absurd rfl hne⟩
  | fault f =>
    rw [stepCall_fault hs]
    exact ⟨fun hok => absurd hok (result_ne_ok f), fun _ => ⟨rfl, rfl, by rw [stepCall_fault hs]⟩⟩
  | refused r => exact absurd hs (step_not_refused s r)

/-! The entries that stand for no descriptor (rules R104, R105) -/

/-- Settles O22: no operand is read, so the one error is that of the empty entry. -/
theorem emptyPrimaryEntryRaises : Obligations.EmptyPrimaryEntryRaises := by
  refine ⟨fun s errCycles hp hop => ?_, fun _ _ => rfl⟩
  have h := step_empty hp ((primaryEntry_none _ _).mpr hop)
  rw [stepCall_fault h]
  exact ⟨h, rfl, rfl⟩

/-- Settles O23: the second byte is read at `Addr(pc, 1)`, which raises only at 0xFFFF under `fault`. -/
theorem prefixedPairRaises : Obligations.PrefixedPairRaises := by
  refine ⟨fun s hp hr => step_prefixed hp hr, fun s hp hw hpc => step_prefixed_noRoom hp ?_, fun _ _ => rfl⟩
  exact not_hasRoom.mpr ⟨hw, by rw [hpc]; decide⟩

/-! The fetch reads what the decoder reads (rules R70, R102, R103) -/

/-- The byte at `pc`, where the bytes from `pc` on are known. -/
theorem byteAt_pc {s : State} {op : Byte} {rest : List Byte} (hb : BytesAtPc s (op :: rest)) : s.byteAt s.pc = op := by
  simpa using (hb 0 (Nat.zero_lt_succ _)).2

/-- Operands that the decoder takes from the bytes after the opcode are those the fetch reads (rules R73, R74). -/
theorem fetchOperands_of_decode {s : State} {op : Byte} {rest : List Byte} {hd : Handler} {i : Instr}
    (hb : BytesAtPc s (op :: rest)) (h : hd.decode rest = .ok (i, [])) : fetchOperands s s.pc hd = .ok i := by
  match hd, rest, h with
  | .implied _, _, rfl => rfl
  | .imm8 f, [v], rfl =>
    obtain ⟨hr, hv⟩ := hb 1 (by simp)
    exact (fetchOperands_imm8 hr).trans (congrArg (fun v => Except.ok (f v)) hv)
  | .imm16 f, [lo, hi], rfl =>
    obtain ⟨-, hlo⟩ := hb 1 (by simp)
    obtain ⟨hr, hhi⟩ := hb 2 (by simp)
    exact (fetchOperands_imm16 hr).trans (congrArg₂ (fun hi lo => Except.ok (f (joinBytes hi lo))) hhi hlo)

/-- The fetch gives the instruction that the bytes at `pc` decode to: a pair, an empty entry or a row of the table. -/
theorem fetch_of_decode {s : State} {bytes : List Byte} {i : Instr} (h : decode s.cfg bytes = .ok (i, []))
    (hb : BytesAtPc s bytes) : fetch s = .ok i := by
  match bytes with
  | [] => cases h
  | op :: rest =>
    have hop := byteAt_pc hb
    by_cases hp : op = s.cfg.prefixOpcode
    · subst hp
      match rest with
      | [] => rw [decode, if_pos rfl] at h; cases h
      | xx :: rest =>
        rw [decode_prefixed] at h
        cases h
        obtain ⟨hr, hxx⟩ := hb 1 (by simp)
        exact (fetch_prefixed hop hr).trans (congrArg (fun xx => Except.ok (Instr.prefixed xx)) hxx)
    subst hop
    cases hd : primaryEntry s.cfg.table (s.byteAt s.pc) with
    | none =>
      rw [decode_emptyEntry hp hd] at h
      cases h
      exact fetch_empty hp hd
    | some d =>
      rw [decode_row hp hd] at h
      rw [fetch_populated hp hd]
      exact fetchOperands_of_decode hb h

/-- Settles O21: the fetch gives the decoded instruction, and the step is `exec` of what was fetched. -/
theorem stepRunsTheDecodedInstruction : Obligations.StepRunsTheDecodedInstruction := by
  intro s bytes i h hb
  rw [step, fetch_of_decode h hb, orRaise_ok]

/-! The errors of a step (rules R112, R160) -/

/-- A handler's tail faults where the address after the instruction raises; no handler has written `pc` or the parameters. -/
theorem finish_fault {n cycles : Nat} {s q : State} {f : Fault} (h : finish n cycles q = .fault f) (hcfg : q.cfg = s.cfg)
    (hpc : q.pc = s.pc) : ¬ HasRoom n s ∧ f = .outOfRangeAddress (s.pc.toNat + n) := by
  rw [HasRoom, ← hcfg, ← hpc]
  by_cases hr : HasRoom n q
  · rw [finish_room hr] at h
    cases h
  · rw [finish_noRoom hr] at h
    cases h
    exact ⟨hr, rfl⟩

theorem jumpAbsIf_fault {cc : Cond} {a16 : Word} {s : State} {f : Fault} (h : jumpAbsIf cc a16 s = .fault f) :
    ¬ HasRoom 3 s ∧ f = .outOfRangeAddress (s.pc.toNat + 3) := by
  unfold jumpAbsIf at h
  split at h
  · cases h
  · exact finish_fault h rfl rfl

/-- Where a relative jump computes the address after itself. -/
theorem relative_fault {k : Word → Host.Outcome State Fault Refusal} {s : State} {f : Fault}
    (h : orRaise (addrAfter s.cfg.addrWrap s.pc 2) k = .fault f) (hk : ∀ next, k next ≠ .fault f) :
    ¬ HasRoom 2 s ∧ f = .outOfRangeAddress (s.pc.toNat + 2) := by
  by_cases hr : HasRoom 2 s
  · rw [addrAfter_room hr, orRaise_ok] at h
    exact absurd h (hk _)
  · rw [addrAfter_noRoom hr, orRaise_error] at h
    cases h
    exact ⟨hr, rfl⟩

theorem jumpRelIf_fault {cc : Cond} {e8 : Byte} {s : State} {f : Fault} (h : jumpRelIf cc e8 s = .fault f) :
    ¬ HasRoom 2 s ∧ f = .outOfRangeAddress (s.pc.toNat + 2) := by
  refine relative_fault h fun next => ?_
  split <;> exact nofun

/-- If an instruction faults, it stands for no descriptor or the address after it raises (rules R56, R104, R105). -/
theorem exec_fault {i : Instr} {s : State} {f : Fault} (h : exec i s = .fault f) :
    (∃ tbl op, f = .unimplementedOpcode tbl op s.pc) ∨
      ¬ HasRoom i.length s ∧ f = .outOfRangeAddress (s.pc.toNat + i.length) := by
  cases i
  case prefixed | emptyPrimary =>
    cases h
    exact .inl ⟨_, _, rfl⟩
  case ldIndHlD8 | ldIndHlA =>
    simp only [exec, execLdIndHlD8, execLdIndHlA, writeIndHl_eq, orRaise_ok] at h
    exact .inr (finish_fault h rfl rfl)
  case ldAIndHl =>
    simp only [exec, execLdAIndHl, readIndHl_eq, orRaise_ok] at h
    exact .inr (finish_fault h rfl rfl)
  case addAIndHl | adcAIndHl | subIndHl =>
    simp only [exec, execAddAIndHl, execAdcAIndHl, execSubIndHl, aluIndHl_eq] at h
    exact .inr (finish_fault h rfl rfl)
  case jpA16 => cases h
  case jpNzA16 | jpZA16 | jpNcA16 | jpCA16 => exact .inr (jumpAbsIf_fault h)
  case jrE8 => exact .inr (relative_fault h fun _ => nofun)
  case jrNzE8 | jrZE8 | jrNcE8 | jrCE8 => exact .inr (jumpRelIf_fault h)
  all_goals exact .inr (finish_fault h rfl rfl)

theorem fetchOperands_error {s : State} {hd : Handler} {f : Fault} (h : fetchOperands s s.pc hd = .error f) :
    f = .outOfRangeAddress 0x10000 := by
  cases hd with
  | implied i => cases h
  | imm8 g =>
    by_cases hr : HasRoom 1 s
    · rw [fetchOperands_imm8 hr] at h
      cases h
    · rw [fetchOperands_imm8_noRoom hr] at h
      cases h
      rfl
  | imm16 g =>
    by_cases hr : HasRoom 2 s
    · rw [fetchOperands_imm16 hr] at h
      cases h
    · rw [fetchOperands_imm16_noRoom hr] at h
      cases h
      rfl

/-- A fetch raises nothing but an address past the top (rule R164). -/
theorem fetch_error {s : State} {f : Fault} (h : fetch s = .error f) : ∃ addr, f = .outOfRangeAddress addr := by
  by_cases hp : s.byteAt s.pc = s.cfg.prefixOpcode
  · by_cases hr : HasRoom 1 s
    · rw [fetch_prefixed hp hr] at h
      cases h
    · rw [fetch_prefixed_noRoom hp hr] at h
      cases h
      exact ⟨_, rfl⟩
  cases hd : primaryEntry s.cfg.table (s.byteAt s.pc) with
  | none =>
    rw [fetch_empty hp hd] at h
    cases h
  | some d =>
    rw [fetch_populated hp hd] at h
    exact ⟨_, fetchOperands_error h⟩

/-- Settles O25: a fault comes from the fetch or from the handler, and no handler refuses. -/
theorem stepIsNeverRefused : Obligations.StepIsNeverRefused := by
  intro s
  cases hs : step s with
  | next t => exact .inl ⟨t, rfl⟩
  | fault f =>
    obtain hf | ⟨i, -, hx⟩ := orRaise_fault hs
    · obtain ⟨addr, rfl⟩ := fetch_error hf
      exact .inr (.inr ⟨addr, rfl⟩)
    · obtain ⟨tbl, op, rfl⟩ | ⟨-, rfl⟩ := exec_fault hx
      · exact .inr (.inl ⟨tbl, op, rfl⟩)
      · exact .inr (.inr ⟨_, rfl⟩)
  | refused r => exact absurd hs (step_not_refused s r)

/-! The cycles of a completed step (rules R108, R185), and where one completes -/

/-- The cycles that a handler reports when it completes; none for an instruction that never does. -/
def handlerCycles (f : Flags) : Instr → Option Nat
  | .nop | .addAB | .addAC | .addAD | .addAE | .addAH | .addAL | .addAA | .adcAB | .adcAC | .adcAD | .adcAE | .adcAH
  | .adcAL | .adcAA | .subB | .subC | .subD | .subE | .subH | .subL | .subA => some 4
  | .ldBD8 _ | .ldCD8 _ | .ldDD8 _ | .ldED8 _ | .ldHD8 _ | .ldLD8 _ | .ldAD8 _ | .ldAIndHl | .ldIndHlA | .addAIndHl
  | .adcAIndHl | .subIndHl | .addAD8 _ | .adcAD8 _ | .subD8 _ => some 8
  | .ldSpD16 _ | .ldBcD16 _ | .ldDeD16 _ | .ldHlD16 _ | .ldIndHlD8 _ | .jrE8 _ => some 12
  | .jpA16 _ => some 16
  | .jpNzA16 _ => some (if condHolds .nz f then 16 else 12)
  | .jpZA16 _ => some (if condHolds .z f then 16 else 12)
  | .jpNcA16 _ => some (if condHolds .nc f then 16 else 12)
  | .jpCA16 _ => some (if condHolds .c f then 16 else 12)
  | .jrNzE8 _ => some (if condHolds .nz f then 12 else 8)
  | .jrZE8 _ => some (if condHolds .z f then 12 else 8)
  | .jrNcE8 _ => some (if condHolds .nc f then 12 else 8)
  | .jrCE8 _ => some (if condHolds .c f then 12 else 8)
  | .prefixed _ | .emptyPrimary _ => none

/-- The cycles rule R108 gives a descriptor at an opcode, whose field `cc` names the condition. -/
def descriptorCycles (op : Byte) (d : Descriptor) (f : Flags) : Nat :=
  match d.notTakenCycles with
  | none => d.baseCycles
  | some notTaken =>
    let cc := op.toNat / 8 % 4
    let holds := if cc = 0 then !f.z else if cc = 1 then f.z else if cc = 2 then !f.c else f.c
    if holds then d.baseCycles else notTaken

/-- Each row's descriptor gives the cycles of the instructions its handler makes. -/
theorem handlerCycles_of_row (f : Flags) : ∀ row ∈ primaryRows .sm83gk, ∀ i, HandlerMakes row.2.handler i →
    handlerCycles f i = some (descriptorCycles row.1 row.2 f) := by
  simp only [primaryRows, docRows, loadRows, addRows, adcRows, subRows, jumpRows, List.cons_append, List.nil_append,
    List.forall_mem_cons, List.not_mem_nil, false_imp_iff, implies_true, and_true,
    HandlerMakes, forall_eq, forall_exists_index, forall_eq_apply_imp_iff]
  and_intros <;> intros <;> rfl

/-- The instruction fetched at a populated opcode completes with its descriptor's cycles, if it completes. -/
theorem handlerCycles_of_fetchOperands {s : State} {d : Descriptor} {i : Instr}
    (hd : primaryEntry s.cfg.table (s.byteAt s.pc) = some d) (hi : fetchOperands s s.pc d.handler = .ok i) :
    handlerCycles s.flags i = some (descriptorCycles (s.byteAt s.pc) d s.flags) :=
  handlerCycles_of_row s.flags _ (primaryRows_subset _ (mem_primaryRows hd)) i (handlerMakes_of_fetchOperands hi)

/-- The outcome is a next state that reports these cycles. -/
def CompletesIn (cycles : Nat) (o : Host.Outcome State Fault Refusal) : Prop :=
  ∃ t, o = .next t ∧ t.report = cycles

theorem finish_completes {n cycles : Nat} {s : State} (hr : HasRoom n s) : CompletesIn cycles (finish n cycles s) :=
  ⟨_, finish_room hr, rfl⟩

theorem jumpAbsIf_completes {s : State} (hr : HasRoom 3 s) (cc : Cond) (a16 : Word) :
    CompletesIn (if condHolds cc s.flags then 16 else 12) (jumpAbsIf cc a16 s) := by
  unfold jumpAbsIf
  split
  · exact ⟨_, rfl, rfl⟩
  · exact finish_completes hr

theorem jumpRelIf_completes {s : State} (hr : HasRoom 2 s) (cc : Cond) (e8 : Byte) :
    CompletesIn (if condHolds cc s.flags then 12 else 8) (jumpRelIf cc e8 s) := by
  rw [jumpRelIf_room hr]
  split <;> exact ⟨_, rfl, rfl⟩

/-- Where the address after it raises nothing, every instruction that stands for a descriptor completes. -/
theorem exec_completes {i : Instr} {s : State} {cycles : Nat} (hr : HasRoom i.length s)
    (hc : handlerCycles s.flags i = some cycles) : CompletesIn cycles (exec i s) := by
  cases i <;> cases hc
  case ldIndHlD8 | ldIndHlA =>
    simp only [exec, execLdIndHlD8, execLdIndHlA, writeIndHl_eq, orRaise_ok]
    exact finish_completes hr
  case ldAIndHl =>
    simp only [exec, execLdAIndHl, readIndHl_eq, orRaise_ok]
    exact finish_completes hr
  case addAIndHl | adcAIndHl | subIndHl =>
    simp only [exec, execAddAIndHl, execAdcAIndHl, execSubIndHl, aluIndHl_eq]
    exact finish_completes hr
  case jpA16 => exact ⟨_, rfl, rfl⟩
  case jpNzA16 | jpZA16 | jpNcA16 | jpCA16 => exact jumpAbsIf_completes hr _ _
  case jrE8 =>
    simp only [exec, execJrE8, addrAfter_room (n := 2) hr, orRaise_ok]
    exact ⟨_, rfl, rfl⟩
  case jrNzE8 | jrZE8 | jrNcE8 | jrCE8 => exact jumpRelIf_completes hr _ _
  all_goals exact finish_completes hr

/-- When addresses wrap, every operand is read (rule R56). -/
theorem fetchOperands_wrap {s : State} (hw : s.cfg.addrWrap = .wrap) (hd : Handler) :
    ∃ i, fetchOperands s s.pc hd = .ok i := by
  cases hd with
  | implied i => exact ⟨i, rfl⟩
  | imm8 f => exact ⟨_, fetchOperands_imm8 (.inl hw)⟩
  | imm16 f => exact ⟨_, fetchOperands_imm16 (.inl hw)⟩

/-- An instruction that completes reports its cycles, since it completes alike where addresses wrap. -/
theorem exec_report {i : Instr} {s t : State} {cycles : Nat} (hc : handlerCycles s.flags i = some cycles)
    (h : exec i s = .next t) : t.report = cycles := by
  obtain ⟨u, hu, hreport⟩ := exec_completes (s := underWrap s) (.inl rfl) hc
  rw [exec_underWrap h] at hu
  cases hu
  exact hreport

/-- Settles O24: a populated opcode's operands are read and its handler completes; nothing else completes. -/
theorem stepCompletesExactlyOnPopulatedOpcodes : Obligations.StepCompletesExactlyOnPopulatedOpcodes := by
  refine fun s hw => ⟨fun ⟨t, h⟩ => ?_, fun ⟨hp, hop⟩ => ?_⟩
  · obtain ⟨hp, d, hd, -⟩ := step_next_populated h
    refine ⟨hp, ?_⟩
    by_contra hop
    rw [(primaryEntry_none _ _).mpr hop] at hd
    cases hd
  · cases hd : primaryEntry s.cfg.table (s.byteAt s.pc) with
    | none => exact absurd hop ((primaryEntry_none _ _).mp hd)
    | some d =>
      obtain ⟨i, hi⟩ := fetchOperands_wrap hw d.handler
      obtain ⟨t, ht, -⟩ := exec_completes (.inl hw) (handlerCycles_of_fetchOperands hd hi)
      exact ⟨t, by rw [step_populated hp hd, hi, orRaise_ok, ht]⟩

/-- Settles O27: the handler that completes is the one the opcode's descriptor names. -/
theorem cyclesAreTheDescriptors : Obligations.CyclesAreTheDescriptors := by
  refine ⟨fun s f errCycles h => by rw [stepCall_fault h], fun s t h => ?_⟩
  obtain ⟨-, d, hd, i, hi, hx⟩ := step_next_populated h
  exact ⟨d, hd, exec_report (handlerCycles_of_fetchOperands hd hi) hx⟩

/-! Frames (rule R101) -/

/-- Settles O41: an ALU form writes A and the flags, and advances. -/
theorem aluFormsFrame : Obligations.AluFormsFrame := by
  intro i d8 s t hi h
  have halu : (aluKind i).isSome = true := List.all_eq_true (p := fun i => (aluKind i).isSome).mp rfl i hi
  obtain ⟨k, hk⟩ := Option.isSome_iff_exists.mp halu
  obtain ⟨n, bytes, cycles, hx⟩ := exec_alu hk s
  rw [hx] at h
  rw [finish_frame h]
  exact ⟨rfl, rfl, rfl, rfl, rfl, rfl, rfl, rfl, fun _ => rfl⟩

/-- Every register but these, the flags, `sp`, the parameters and every byte of memory are as before. -/
def KeepsAllBut (written : List Reg) (s t : State) : Prop :=
  (∀ r, r ∉ written → t.reg r = s.reg r) ∧ t.flags = s.flags ∧ t.sp = s.sp ∧ t.cfg = s.cfg ∧
    ∀ x : Word, t.byteAt x = s.byteAt x

theorem keepsAllBut_nil (s : State) : KeepsAllBut [] s s :=
  ⟨fun _ _ => rfl, rfl, rfl, rfl, fun _ => rfl⟩

/-- One more register written. -/
theorem KeepsAllBut.setReg {written : List Reg} {s t : State} (h : KeepsAllBut written s t) (r : Reg) (v : Byte) :
    KeepsAllBut (r :: written) s (t.setReg r v) := by
  obtain ⟨hreg, hflags, hsp, hcfg, hmem⟩ := h
  refine ⟨fun q hq => ?_, (setReg_flags t r v).trans hflags, (setReg_sp t r v).trans hsp, (setReg_cfg t r v).trans hcfg,
    fun x => ?_⟩
  · obtain ⟨hqr, hq⟩ := List.ne_and_not_mem_of_not_mem_cons hq
    rw [reg_setReg_other t r q v hqr, hreg q hq]
  · rw [State.byteAt, setReg_mem]
    exact hmem x

theorem finish_keepsAllBut {n cycles : Nat} {written : List Reg} {s q t : State} (hq : KeepsAllBut written s q)
    (h : finish n cycles q = .next t) : KeepsAllBut written s t := by
  rw [finish_frame h]
  exact hq

/-- A handler that writes one register. -/
theorem finish_setReg_keepsAllBut {n cycles : Nat} {r : Reg} {v : Byte} {s t : State}
    (h : finish n cycles (s.setReg r v) = .next t) : KeepsAllBut [r] s t :=
  finish_keepsAllBut ((keepsAllBut_nil s).setReg r v) h

/-- Writing a pair, as `set_BC`, `set_DE` and `set_HL` do (rules R26-R28). -/
theorem setPair_keepsAllBut (s : State) (q r : Reg) (v : Word) :
    KeepsAllBut [q, r] s ((s.setReg r (loByte v)).setReg q (hiByte v)) :=
  ((keepsAllBut_nil s).setReg r (loByte v)).setReg q (hiByte v)

theorem ldAIndHl_keepsAllBut {s t : State} (h : exec .ldAIndHl s = .next t) : KeepsAllBut [.a] s t := by
  simp only [exec, execLdAIndHl, readIndHl_eq, orRaise_ok] at h
  exact finish_setReg_keepsAllBut h

/-- Settles O42: each load writes its destination, and advances. -/
theorem registerLoadsFrame : Obligations.RegisterLoadsFrame := by
  refine fun d8 d16 s t => ⟨?_, fun h => ?_⟩
  · simp only [List.forall_mem_cons, List.not_mem_nil, false_imp_iff, implies_true, and_true]
    exact ⟨finish_setReg_keepsAllBut, finish_setReg_keepsAllBut, finish_setReg_keepsAllBut, finish_setReg_keepsAllBut,
      finish_setReg_keepsAllBut, finish_setReg_keepsAllBut, finish_setReg_keepsAllBut, ldAIndHl_keepsAllBut,
      finish_keepsAllBut (setPair_keepsAllBut s .b .c d16), finish_keepsAllBut (setPair_keepsAllBut s .d .e d16),
      finish_keepsAllBut (setPair_keepsAllBut s .h .l d16)⟩
  · rw [finish_frame h]
    exact ⟨fun _ => rfl, rfl, rfl, fun _ => rfl⟩

/-- A store writes the byte at HL, and advances. -/
theorem exec_store_frame {i : Instr} {d8 : Byte} {s t : State} (hi : i ∈ [.ldIndHlD8 d8, .ldIndHlA])
    (h : exec i s = .next t) :
    ∃ v, t = { s with mem := s.mem.write s.hl.toNat v, pc := t.pc, report := t.report } := by
  obtain rfl | rfl : i = .ldIndHlD8 d8 ∨ i = .ldIndHlA := by simpa using hi
  all_goals
    simp only [exec, execLdIndHlD8, execLdIndHlA, writeIndHl_eq, orRaise_ok] at h
    exact ⟨_, finish_frame h⟩

/-- Settles O43: the one byte written is at HL of the state before. -/
theorem storesFrame : Obligations.StoresFrame := by
  intro i d8 s t hi h
  obtain ⟨v, ht⟩ := exec_store_frame hi h
  rw [ht]
  refine ⟨fun _ => rfl, rfl, rfl, rfl, ?_⟩
  rintro _ rfl x hx
  exact (storesByte_write s s.hl v).2 x hx

/-- Settles O44: NOP and the jumps write `pc` alone. -/
theorem jumpsFrame : Obligations.JumpsFrame := by
  intro i a16 e8 s t hi h
  have ht : t = { s with pc := t.pc, report := t.report } := by
    revert i
    simp only [List.forall_mem_cons, List.not_mem_nil, false_imp_iff, implies_true, and_true]
    exact ⟨finish_frame, fun h => by rw [jumpTo_next h], jumpAbsIf_frame, jumpAbsIf_frame, jumpAbsIf_frame,
      jumpAbsIf_frame, jrE8_frame, jumpRelIf_frame, jumpRelIf_frame, jumpRelIf_frame, jumpRelIf_frame⟩
  rw [ht]
  exact ⟨fun _ => rfl, rfl, rfl, rfl, fun _ => rfl⟩

/-! A run (rules R111, R175) -/

theorem runFrom_atEnd {endPc : Word} {s : State} (hpc : s.pc = endPc) (fuel steps cycles : Nat) :
    runFrom endPc fuel s steps cycles = .ended s steps cycles := by
  cases fuel <;> exact if_pos hpc

theorem runFrom_zero {endPc : Word} {s : State} (hpc : s.pc ≠ endPc) (steps cycles : Nat) :
    runFrom endPc 0 s steps cycles = .running s steps cycles := if_neg hpc

theorem runFrom_next {endPc : Word} {s t : State} (hpc : s.pc ≠ endPc) (hs : step s = .next t) (fuel steps cycles : Nat) :
    runFrom endPc (fuel + 1) s steps cycles = runFrom endPc fuel t (steps + 1) (cycles + t.report) := by
  rw [runFrom, if_neg hpc, hs]

theorem runFrom_fault {endPc : Word} {s : State} {f : Fault} (hpc : s.pc ≠ endPc) (hs : step s = .fault f)
    (fuel steps cycles : Nat) : runFrom endPc (fuel + 1) s steps cycles = .faulted f s steps cycles := by
  rw [runFrom, if_neg hpc, hs]

/-- Going on with more fuel from what a run has come to: only a run that is not yet over goes on. -/
def resume (endPc : Word) (more : Nat) : RunOutcome → RunOutcome
  | .running s steps cycles => runFrom endPc more s steps cycles
  | outcome => outcome

/-- What an outcome says of its state: it stands at the end, or its step raises the error. -/
def OutcomeHolds (endPc : Word) : RunOutcome → Prop
  | .ended t _ _ => t.pc = endPc
  | .faulted f t _ _ => step t = .fault f
  | _ => True

/-- More fuel is the same run, gone on with. -/
theorem runFrom_add (endPc : Word) (fuel more : Nat) (s : State) (steps cycles : Nat) :
    runFrom endPc (fuel + more) s steps cycles = resume endPc more (runFrom endPc fuel s steps cycles) := by
  induction fuel generalizing s steps cycles with
  | zero =>
    by_cases hpc : s.pc = endPc
    · rw [runFrom_atEnd hpc, runFrom_atEnd hpc]
      rfl
    · rw [runFrom_zero hpc, resume, Nat.zero_add]
  | succ fuel ih =>
    by_cases hpc : s.pc = endPc
    · rw [runFrom_atEnd hpc, runFrom_atEnd hpc]
      rfl
    rw [Nat.add_right_comm]
    cases hs : step s with
    | next t => rw [runFrom_next hpc hs, runFrom_next hpc hs, ih]
    | fault f =>
      rw [runFrom_fault hpc hs, runFrom_fault hpc hs]
      rfl
    | refused r => exact absurd hs (step_not_refused s r)

theorem runFrom_outcomeHolds (endPc : Word) (fuel : Nat) (s : State) (steps cycles : Nat) :
    OutcomeHolds endPc (runFrom endPc fuel s steps cycles) := by
  induction fuel generalizing s steps cycles with
  | zero =>
    by_cases hpc : s.pc = endPc
    · rw [runFrom_atEnd hpc]
      exact hpc
    · rw [runFrom_zero hpc]
      trivial
  | succ fuel ih =>
    by_cases hpc : s.pc = endPc
    · rw [runFrom_atEnd hpc]
      exact hpc
    cases hs : step s with
    | next t =>
      rw [runFrom_next hpc hs]
      exact ih t (steps + 1) (cycles + t.report)
    | fault f =>
      rw [runFrom_fault hpc hs]
      exact hs
    | refused r => exact absurd hs (step_not_refused s r)

theorem runTo_add (endPc : Word) (fuel more : Nat) (s : State) :
    runTo endPc (fuel + more) s = resume endPc more (runTo endPc fuel s) := runFrom_add endPc fuel more s 0 0

theorem runTo_ended {endPc : Word} {fuel : Nat} {s t : State} {steps cycles : Nat}
    (h : runTo endPc fuel s = .ended t steps cycles) (more : Nat) :
    t.pc = endPc ∧ runTo endPc (fuel + more) s = .ended t steps cycles := by
  have hold : OutcomeHolds endPc (runTo endPc fuel s) := runFrom_outcomeHolds endPc fuel s 0 0
  rw [h] at hold
  exact ⟨hold, by rw [runTo_add, h]; rfl⟩

theorem runTo_faulted {endPc : Word} {fuel : Nat} {f : Fault} {s t : State} {steps cycles : Nat}
    (h : runTo endPc fuel s = .faulted f t steps cycles) (more : Nat) :
    step t = .fault f ∧ runTo endPc (fuel + more) s = .faulted f t steps cycles := by
  have hold : OutcomeHolds endPc (runTo endPc fuel s) := runFrom_outcomeHolds endPc fuel s 0 0
  rw [h] at hold
  exact ⟨hold, by rw [runTo_add, h]; rfl⟩

/-- Settles O56: a run that ended and faulted would have come to both with the fuels added. -/
theorem runOutcomesAreFinal : Obligations.RunOutcomesAreFinal := by
  refine fun endPc s fuel more => ⟨fun t steps cycles h => runTo_ended h more, fun f t steps cycles h => ?_⟩
  obtain ⟨hstep, hmore⟩ := runTo_faulted h more
  refine ⟨hmore, hstep, ?_⟩
  rintro ⟨fuel', t', steps', cycles', h'⟩
  have hfault := (runTo_faulted h fuel').2
  rw [Nat.add_comm, (runTo_ended h' fuel).2] at hfault
  cases hfault

end Sys2Proof.Proofs.ExecutionCore
end

section
/-! PROOFS of 42_load_sp.md. LD SP,d16 loads the stack pointer or raises at 0x10000, in both configurations (rule R120). -/

namespace Sys2Proof.Proofs.LoadSp

open Sys2Proof.Machine Sys2Proof.Safety Sys2Proof.Laws Sys2Proof.Proofs.Scope Sys2Proof.Proofs.Encoding

/-- The handler, once the operand is read. -/
theorem exec_ldSpD16_room (d16 : Word) {s : State} (hr : HasRoom 3 s) :
    exec (.ldSpD16 d16) s = .next { s with sp := d16, pc := s.pc + 3, report := 12 } :=
  finish_room (s := { s with sp := d16 }) hr

/-- The byte 0x31 is populated under either table, so it is not PREFIX_OPCODE (rule R83). -/
theorem ldSpD16_ne_prefix {s : State} (hw : s.cfg.wf = true) (hop : s.byteAt s.pc = 0x31#8) :
    s.byteAt s.pc ≠ s.cfg.prefixOpcode :=
  hop ▸ ne_prefix_of_entry hw (primaryEntry_ldSpD16 s.cfg.table)

/-- Settles O28: the row of 0x31 stands in both tables, and its step completes exactly with room for three bytes. -/
theorem ldSpLoadsTheStackPointer : Obligations.LdSpLoadsTheStackPointer := by
  refine ⟨fun d16 s hr => exec_ldSpD16_room d16 hr, fun s hw hop hr => ?_, fun s hw hop hfault hpc => ?_⟩
  · rw [← joinBytes_eq_ofNat]
    exact step_ldSpD16_room (ldSpD16_ne_prefix hw hop) hop hr
  · have hr : ¬ HasRoom 3 s := not_hasRoom.mpr ⟨hfault, by omega⟩
    exact step_ldSpD16_noRoom (ldSpD16_ne_prefix hw hop) hop hr

end Sys2Proof.Proofs.LoadSp
end

section
/-! PROOFS of 45_profile_loads.md. A handler that ends with `finish` raises from the address where its instruction no longer fits
(rule R56); from that and its table row, each load, each store and NOP (rules R130-R135). -/

namespace Sys2Proof.Proofs.ProfileLoads

open Sys2Proof.Machine Sys2Proof.Safety Sys2Proof.Laws

/-! The rows and errors of the profile (rules R56, R81, R164) -/

theorem profileRow_of_lookup {op : Byte} {m : String} {hd : Handler} {base : Nat} {notTaken : Option Nat}
    (h : primaryEntry .sm83gk op = some ⟨m, hd, base, notTaken⟩) : ProfileRow op hd base notTaken :=
  profileRow_of_entry h

/-- Without room for its operand bytes a descriptor's fetch raises at the first address past the top (rule R164). -/
theorem fetchOperands_noRoom {s : State} {hd : Handler} (h : ¬ HasRoom hd.operandLength s) :
    fetchOperands s s.pc hd = .error (.outOfRangeAddress 0x10000) := by
  cases hd with
  | implied i => exact absurd (.inr (Nat.le_of_lt_succ s.pc.isLt)) h
  | imm8 f => exact fetchOperands_imm8_noRoom h
  | imm16 f => exact fetchOperands_imm16_noRoom h

/-- The handler of `i` advances by `n` after writes that move neither `pc` nor the parameters (rule R107). -/
def EndsWithFinish (n : Nat) (i : Instr) (s : State) : Prop :=
  ∃ cycles q, exec i s = finish n cycles q ∧ q.pc = s.pc ∧ q.cfg = s.cfg

theorem EndsWithFinish.exec_noRoom {n : Nat} {i : Instr} {s : State} (h : EndsWithFinish n i s) (hr : ¬ HasRoom n s) :
    exec i s = .fault (.outOfRangeAddress (s.pc.toNat + n)) := by
  obtain ⟨cycles, q, hx, hpc, hcfg⟩ := h
  have hrq : ¬ HasRoom n q := by rwa [HasRoom, hpc, hcfg]
  rw [hx, finish_noRoom hrq, hpc]

/-- Either an operand or the next instruction is at 0x10000 (rules R56, R164). -/
theorem raisesFrom_of_finish {op : Byte} {d : Descriptor} {first : Nat} (hd : primaryEntry .sm83gk op = some d)
    (hfirst : first + d.handler.operandLength = 0xFFFF)
    (hx : ∀ s, EndsWithFinish (d.handler.operandLength + 1) (operandsAt s d.handler) s) : RaisesFrom op first := by
  intro s hf hfault hpc
  by_cases hr : HasRoom d.handler.operandLength s
  · have htop : s.pc.toNat + (d.handler.operandLength + 1) = 0x10000 := by
      simp only [HasRoom, hfault, reduceCtorEq, false_or] at hr
      omega
    have hnext : ¬ HasRoom (d.handler.operandLength + 1) s := not_hasRoom.mpr ⟨hfault, by omega⟩
    rw [(profileRow_of_entry hd).2 s hf hr, (hx s).exec_noRoom hnext, htop]
  · rw [step_profile hf hd, fetchOperands_noRoom hr, orRaise_error]

/-! LD rr,d16 (rule R130) -/

theorem setBc_joinBytes (s : State) (hi lo : Byte) : s.setBc (joinBytes hi lo) = { s with b := hi, c := lo } := by
  rw [State.setBc, hiByte_joinBytes, loByte_joinBytes]

theorem setDe_joinBytes (s : State) (hi lo : Byte) : s.setDe (joinBytes hi lo) = { s with d := hi, e := lo } := by
  rw [State.setDe, hiByte_joinBytes, loByte_joinBytes]

theorem setHl_joinBytes (s : State) (hi lo : Byte) : s.setHl (joinBytes hi lo) = { s with h := hi, l := lo } := by
  rw [State.setHl, hiByte_joinBytes, loByte_joinBytes]

theorem exec_ldBcD16 (d16 : Word) (s : State) : exec (.ldBcD16 d16) s = finish 3 12 (s.setBc d16) := rfl
theorem exec_ldDeD16 (d16 : Word) (s : State) : exec (.ldDeD16 d16) s = finish 3 12 (s.setDe d16) := rfl
theorem exec_ldHlD16 (d16 : Word) (s : State) : exec (.ldHlD16 d16) s = finish 3 12 (s.setHl d16) := rfl

/-- Settles O30: the operand joins the two bytes, and the setter of the pair splits it again. -/
theorem ldPairLoadsBothHalves : Obligations.LdPairLoadsBothHalves := by
  refine ⟨⟨profileRow_of_lookup rfl, profileRow_of_lookup rfl, profileRow_of_lookup rfl⟩, fun hi lo s hr => ?_,
    raisesFrom_of_finish rfl rfl fun s => ⟨12, s.setBc _, exec_ldBcD16 _ s, rfl, rfl⟩,
    raisesFrom_of_finish rfl rfl fun s => ⟨12, s.setDe _, exec_ldDeD16 _ s, rfl, rfl⟩,
    raisesFrom_of_finish rfl rfl fun s => ⟨12, s.setHl _, exec_ldHlD16 _ s, rfl, rfl⟩⟩
  simp only [← joinBytes_eq_ofNat, exec_ldBcD16, exec_ldDeD16, exec_ldHlD16, setBc_joinBytes, setDe_joinBytes,
    setHl_joinBytes]
  exact ⟨finish_room hr, finish_room hr, finish_room hr⟩

/-! LD r,d8 (rule R131) -/

/-- The instruction `LD r,d8` that rule R131 gives each register. -/
def ldRegD8 : Reg → Byte → Instr
  | .b => .ldBD8 | .c => .ldCD8 | .d => .ldDD8 | .e => .ldED8 | .h => .ldHD8 | .l => .ldLD8 | .a => .ldAD8

theorem exec_ldRegD8 (r : Reg) (d8 : Byte) (s : State) : exec (ldRegD8 r d8) s = finish 2 8 (s.setReg r d8) := by
  cases r <;> rfl

theorem primaryEntry_ldRegD8 (r : Reg) :
    ∃ m, primaryEntry .sm83gk (opLdImm r) = some ⟨m, .imm8 (ldRegD8 r), 8, none⟩ := by
  cases r <;> exact ⟨_, rfl⟩

theorem ldRegD8_row_and_errors (r : Reg) :
    ProfileRow (opLdImm r) (.imm8 (ldRegD8 r)) 8 none ∧ RaisesFrom (opLdImm r) 0xFFFE := by
  obtain ⟨m, hd⟩ := primaryEntry_ldRegD8 r
  exact ⟨profileRow_of_lookup hd,
    raisesFrom_of_finish hd rfl fun s => ⟨8, s.setReg r _, exec_ldRegD8 r _ s, setReg_pc s r _, setReg_cfg s r _⟩⟩

theorem exec_ldRegD8_room (r : Reg) (d8 : Byte) {s : State} (hr : HasRoom 2 s) :
    exec (ldRegD8 r d8) s = .next { s.setReg r d8 with pc := s.pc + 2, report := 8 } := by
  have hrq : HasRoom 2 (s.setReg r d8) := by rwa [HasRoom, setReg_cfg, setReg_pc]
  rw [exec_ldRegD8, finish_room hrq, setReg_pc]
  rfl

/-- Settles O31: the seven registers are cases of one handler, at the opcode whose bits 5:3 name the register. -/
theorem ldRegLoadsTheImmediate : Obligations.LdRegLoadsTheImmediate := by
  refine ⟨fun d8 s hr => ⟨exec_ldRegD8_room .b d8 hr, exec_ldRegD8_room .c d8 hr, exec_ldRegD8_room .d d8 hr,
    exec_ldRegD8_room .e d8 hr, exec_ldRegD8_room .h d8 hr, exec_ldRegD8_room .l d8 hr, exec_ldRegD8_room .a d8 hr⟩, ?_⟩
  simp only [List.forall_mem_cons, List.not_mem_nil, false_imp_iff, implies_true, and_true]
  exact ⟨ldRegD8_row_and_errors .b, ldRegD8_row_and_errors .c, ldRegD8_row_and_errors .d, ldRegD8_row_and_errors .e,
    ldRegD8_row_and_errors .h, ldRegD8_row_and_errors .l, ldRegD8_row_and_errors .a⟩

/-! The operand (HL) (rules R132-R134) -/

theorem exec_ldIndHlD8 (d8 : Byte) (s : State) :
    exec (.ldIndHlD8 d8) s = finish 2 12 { s with mem := s.mem.write s.hl.toNat d8 } := by
  simp only [exec, execLdIndHlD8, writeIndHl_eq, orRaise_ok]

theorem exec_ldIndHlA (s : State) : exec .ldIndHlA s = finish 1 8 { s with mem := s.mem.write s.hl.toNat s.a } := by
  simp only [exec, execLdIndHlA, writeIndHl_eq, orRaise_ok]
  rfl

theorem exec_ldAIndHl (s : State) : exec .ldAIndHl s = finish 1 8 { s with a := s.byteAt s.hl } := by
  simp only [exec, execLdAIndHl, readIndHl_eq, orRaise_ok]
  rfl

/-- Settles O32: the memory of the next state is the bus write at HL, which is always in range (rule R48). -/
theorem storesWriteTheByteAtHl : Obligations.StoresWriteTheByteAtHl := by
  refine ⟨⟨profileRow_of_lookup rfl, profileRow_of_lookup rfl⟩, fun d8 s hr => ?_, fun s hr => ?_,
    raisesFrom_of_finish rfl rfl fun s => ⟨12, _, exec_ldIndHlD8 _ s, rfl, rfl⟩,
    raisesFrom_of_finish rfl rfl fun s => ⟨8, _, exec_ldIndHlA s, rfl, rfl⟩⟩
  · exact ⟨_, (exec_ldIndHlD8 d8 s).trans (finish_room hr), storesByte_write s s.hl d8⟩
  · exact ⟨_, (exec_ldIndHlA s).trans (finish_room hr), storesByte_write s s.hl s.a⟩

/-- Settles O33: the bus read at HL, which is always in range (rule R48). -/
theorem ldALoadsTheByteAtHl : Obligations.LdALoadsTheByteAtHl :=
  ⟨profileRow_of_lookup rfl, fun s hr => (exec_ldAIndHl s).trans (finish_room hr),
    raisesFrom_of_finish rfl rfl fun s => ⟨8, _, exec_ldAIndHl s, rfl, rfl⟩⟩

/-! NOP (rule R135) -/

theorem exec_nop (s : State) : exec .nop s = finish 1 4 s := rfl

/-- Settles O29: the handler is `finish` on the state as it was. -/
theorem nopOnlyAdvances : Obligations.NopOnlyAdvances :=
  ⟨profileRow_of_lookup rfl, fun s hr => (exec_nop s).trans (finish_room hr),
    raisesFrom_of_finish rfl rfl fun s => ⟨4, s, exec_nop s, rfl, rfl⟩⟩

end Sys2Proof.Proofs.ProfileLoads
end

section
/-! PROOFS of 46_profile_alu.md. What an ALU form writes and where it raises follow, for any operation, from its table row and
from its handler being `finish` after the operation on A and the operand (rules R90, R140-R148). -/

namespace Sys2Proof.Proofs.ProfileAlu

open Sys2Proof.Machine Sys2Proof.Safety Sys2Proof.Laws Sys2Proof.Proofs.ProfileLoads

/-- A register form or an `(HL)` form (rules R140, R141, R143, R144, R146, R147): `operand` is read from the state. -/
theorem aluOneByte_row {opcode : Byte} {m : String} {i : Instr} {cycles : Nat} {op : Byte → Byte → Flags → Byte × Flags}
    {operand : State → Byte} (hd : primaryEntry .sm83gk opcode = some ⟨m, .implied i, cycles, none⟩)
    (hx : ∀ s, exec i s = finish 1 cycles
      { s with a := (op s.a (operand s) s.flags).1, flags := (op s.a (operand s) s.flags).2 }) :
    ProfileRow opcode (.implied i) cycles none ∧ RaisesFrom opcode 0xFFFF ∧
    ∀ s : State, HasRoom 1 s →
      exec i s = .next { s with
        a := (op s.a (operand s) s.flags).1, flags := (op s.a (operand s) s.flags).2
        pc := s.pc + 1, report := cycles } :=
  ⟨profileRow_of_lookup hd, raisesFrom_of_finish hd rfl fun s => ⟨cycles, _, hx s, rfl, rfl⟩,
    fun s hr => (hx s).trans (finish_room hr)⟩

/-- An immediate form (rules R142, R145, R148). -/
theorem aluImm_row {opcode : Byte} {m : String} {f : Byte → Instr} {op : Byte → Byte → Flags → Byte × Flags}
    (hd : primaryEntry .sm83gk opcode = some ⟨m, .imm8 f, 8, none⟩)
    (hx : ∀ d8 s, exec (f d8) s = finish 2 8
      { s with a := (op s.a d8 s.flags).1, flags := (op s.a d8 s.flags).2 }) :
    ProfileRow opcode (.imm8 f) 8 none ∧ RaisesFrom opcode 0xFFFE ∧
    ∀ (d8 : Byte) (s : State), HasRoom 2 s →
      exec (f d8) s = .next { s with
        a := (op s.a d8 s.flags).1, flags := (op s.a d8 s.flags).2
        pc := s.pc + 2, report := 8 } :=
  ⟨profileRow_of_lookup hd, raisesFrom_of_finish hd rfl fun s => ⟨8, _, hx _ s, rfl, rfl⟩,
    fun d8 s hr => (hx d8 s).trans (finish_room hr)⟩

/-- Settles O34: the handlers are the register, `(HL)` and immediate forms of `aluAdd`, at the opcodes of the table. -/
theorem addWritesAAndFlags : Obligations.AddWritesAAndFlags := by
  refine ⟨fun x hx => ?_, aluOneByte_row rfl (aluIndHl_eq aluAdd), aluImm_row rfl (aluImm_eq aluAdd)⟩
  fin_cases hx <;> exact aluOneByte_row rfl (aluReg_eq aluAdd _)

/-- Settles O35: the handlers are the register, `(HL)` and immediate forms of `aluAdc`, at the opcodes of the table. -/
theorem adcWritesAAndFlags : Obligations.AdcWritesAAndFlags := by
  refine ⟨fun x hx => ?_, aluOneByte_row rfl (aluIndHl_eq aluAdc), aluImm_row rfl (aluImm_eq aluAdc)⟩
  fin_cases hx <;> exact aluOneByte_row rfl (aluReg_eq aluAdc _)

/-- Settles O36: the handlers are the register, `(HL)` and immediate forms of `aluSub`, at the opcodes of the table. -/
theorem subWritesAAndFlags : Obligations.SubWritesAAndFlags := by
  refine ⟨fun x hx => ?_, aluOneByte_row rfl (aluIndHl_eq aluSub), aluImm_row rfl (aluImm_eq aluSub)⟩
  fin_cases hx <;> exact aluOneByte_row rfl (aluReg_eq aluSub _)

end Sys2Proof.Proofs.ProfileAlu
end

section
/-! PROOFS of 47_profile_control.md. A jump raises where its operands are not readable, and beyond that only where it computes the
address after itself: JP not at all, JP cc when its condition is false, JR and JR cc always (rules R150-R154). -/

namespace Sys2Proof.Proofs.ProfileControl

open Sys2Proof.Machine Sys2Proof.Safety Sys2Proof.Laws Sys2Proof.Proofs.ProfileLoads

/-! Where a step raises (rules R56, R164) -/

theorem step_operands_noRoom {op : Byte} {d : Descriptor} {s : State} (hf : FetchesProfile op s)
    (hd : primaryEntry .sm83gk op = some d) (hr : ¬ HasRoom d.handler.operandLength s) :
    step s = .fault (.outOfRangeAddress 0x10000) := by
  rw [step_profile hf hd, fetchOperands_noRoom hr, orRaise_error]

/-- The operands end at 0xFFFF, and the handler raises at the address after the instruction. -/
theorem step_atTop {op : Byte} {d : Descriptor} {s : State} (hf : FetchesProfile op s)
    (hd : primaryEntry .sm83gk op = some d) (htop : s.pc.toNat + d.handler.operandLength = 0xFFFF)
    (hx : exec (operandsAt s d.handler) s =
      .fault (.outOfRangeAddress (s.pc.toNat + (d.handler.operandLength + 1)))) :
    step s = .fault (.outOfRangeAddress 0x10000) := by
  rw [(profileRow_of_entry hd).2 s hf (.inr htop.le), hx, ← Nat.add_assoc, htop]

/-- From the first address whose operands pass the top, a step raises whatever its handler does. -/
theorem raisesFrom_of_operands {op : Byte} {d : Descriptor} {first : Nat} (hd : primaryEntry .sm83gk op = some d)
    (hfirst : first + d.handler.operandLength = 0x10000) : RaisesFrom op first :=
  fun _ hf hfault hpc => step_operands_noRoom hf hd (not_hasRoom.mpr ⟨hfault, by omega⟩)

/-- A handler of one operand byte that raises wherever the address after it does, though it need not end with `finish`. -/
theorem raisesFrom_of_exec_noRoom {op : Byte} {m : String} {f : Byte → Instr} {base : Nat} {notTaken : Option Nat}
    (hd : primaryEntry .sm83gk op = some ⟨m, .imm8 f, base, notTaken⟩)
    (hx : ∀ e8 s, ¬ HasRoom 2 s → exec (f e8) s = .fault (.outOfRangeAddress (s.pc.toNat + 2))) :
    RaisesFrom op 0xFFFE := by
  intro s hf hfault hpc
  obtain htop | htop : s.pc.toNat + 1 = 0xFFFF ∨ 0xFFFF < s.pc.toNat + 1 := by omega
  · exact step_atTop hf hd htop (hx _ s (not_hasRoom.mpr ⟨hfault, by omega⟩))
  · exact step_operands_noRoom hf hd (not_hasRoom.mpr ⟨hfault, htop⟩)

/-! JP a16 (rule R150) -/

theorem exec_jpA16 (a16 : Word) (s : State) : exec (.jpA16 a16) s = .next { s with pc := a16, report := 16 } := rfl

/-- Settles O37: the handler computes no address, so only the operand fetch can raise. -/
theorem jpSetsPc : Obligations.JpSetsPc := by
  have hrow : ProfileRow 0xC3 (.imm16 .jpA16) 16 none := profileRow_of_lookup rfl
  exact ⟨hrow, exec_jpA16, fun s hf hr => (hrow.2 s hf hr).trans (exec_jpA16 _ s), raisesFrom_of_operands rfl rfl⟩

/-! JP cc,a16 (rules R151, R154) -/

/-- The instruction `JP cc,a16` that rule R151 gives each condition. -/
def jpCc : Cond → Word → Instr
  | .nz => .jpNzA16 | .z => .jpZA16 | .nc => .jpNcA16 | .c => .jpCA16

theorem exec_jpCc (cc : Cond) (a16 : Word) (s : State) : exec (jpCc cc a16) s = jumpAbsIf cc a16 s := by
  cases cc <;> rfl

theorem primaryEntry_jpCc (cc : Cond) :
    ∃ m, primaryEntry .sm83gk (opJpCc cc) = some ⟨m, .imm16 (jpCc cc), 16, some 12⟩ := by
  cases cc <;> exact ⟨_, rfl⟩

theorem exec_jpCc_taken {cc : Cond} {s : State} (a16 : Word) (hcc : condHolds cc s.flags = true) :
    exec (jpCc cc a16) s = .next { s with pc := a16, report := 16 } := by
  rw [exec_jpCc, jumpAbsIf, if_pos hcc, jumpTo]

theorem exec_jpCc_notTaken {cc : Cond} {s : State} (a16 : Word) (hcc : condHolds cc s.flags = false) :
    exec (jpCc cc a16) s = finish 3 12 s := by
  rw [exec_jpCc, jumpAbsIf, hcc, if_neg Bool.false_ne_true]

/-- At 0xFFFD both operands are readable, and the fall-through address is the first past the top. -/
theorem step_jpCc_notTaken_atTop {cc : Cond} {s : State} (hf : FetchesProfile (opJpCc cc) s)
    (hfault : s.cfg.addrWrap = .fault) (hpc : s.pc = 0xFFFD) (hcc : condHolds cc s.flags = false) :
    step s = .fault (.outOfRangeAddress 0x10000) := by
  obtain ⟨m, hd⟩ := primaryEntry_jpCc cc
  have htop : s.pc.toNat + 2 = 0xFFFF := by rw [hpc]; rfl
  have hr : ¬ HasRoom 3 s := not_hasRoom.mpr ⟨hfault, by omega⟩
  exact step_atTop hf hd htop ((exec_jpCc_notTaken _ hcc).trans (finish_noRoom hr))

theorem jpCc_takesItsCondition (cc : Cond) :
    ProfileRow (opJpCc cc) (.imm16 (jpCc cc)) 16 (some 12) ∧
    (∀ (a16 : Word) (s : State), condHolds cc s.flags = true →
      exec (jpCc cc a16) s = .next { s with pc := a16, report := 16 }) ∧
    (∀ (a16 : Word) (s : State), condHolds cc s.flags = false → HasRoom 3 s →
      exec (jpCc cc a16) s = .next { s with pc := s.pc + 3, report := 12 }) ∧
    RaisesFrom (opJpCc cc) 0xFFFE ∧
    (∀ s : State, FetchesProfile (opJpCc cc) s → s.cfg.addrWrap = .fault → s.pc = 0xFFFD →
      condHolds cc s.flags = false → step s = .fault (.outOfRangeAddress 0x10000)) := by
  obtain ⟨m, hd⟩ := primaryEntry_jpCc cc
  exact ⟨profileRow_of_lookup hd, fun a16 _ => exec_jpCc_taken a16,
    fun a16 s hcc hr => (exec_jpCc_notTaken a16 hcc).trans (finish_room hr), raisesFrom_of_operands hd rfl,
    fun _ => step_jpCc_notTaken_atTop⟩

/-- Settles O38: the four jumps are cases of one handler, at the opcode whose bits 4:3 name the condition. -/
theorem jpConditionalTakesItsCondition : Obligations.JpConditionalTakesItsCondition := by
  simp only [Obligations.JpConditionalTakesItsCondition, List.forall_mem_cons, List.not_mem_nil, false_imp_iff,
    implies_true, and_true]
  exact ⟨jpCc_takesItsCondition .nz, jpCc_takesItsCondition .z, jpCc_takesItsCondition .nc, jpCc_takesItsCondition .c⟩

/-! JR e8 (rule R152) -/

theorem exec_jrE8_room (e8 : Byte) {s : State} (hr : HasRoom 2 s) :
    exec (.jrE8 e8) s = .next { s with
      pc := BitVec.ofInt 16 ((s.pc.toNat : Int) + 2 + e8.toInt), report := 12 } := by
  rw [← relTarget_eq, exec, execJrE8, addrAfter_room hr, orRaise_ok]
  rfl

theorem exec_jrE8_noRoom (e8 : Byte) {s : State} (hr : ¬ HasRoom 2 s) :
    exec (.jrE8 e8) s = .fault (.outOfRangeAddress (s.pc.toNat + 2)) := by
  rw [exec, execJrE8, addrAfter_noRoom hr, orRaise_error]

/-- Settles O39: only the address after the instruction can raise; the target is a sum of words. -/
theorem jrAddsItsDisplacement : Obligations.JrAddsItsDisplacement :=
  ⟨profileRow_of_lookup rfl, fun e8 _ => exec_jrE8_room e8,
    raisesFrom_of_exec_noRoom rfl fun e8 _ => exec_jrE8_noRoom e8⟩

/-! JR cc,e8 (rules R153, R154) -/

/-- The instruction `JR cc,e8` that rule R153 gives each condition. -/
def jrCc : Cond → Byte → Instr
  | .nz => .jrNzE8 | .z => .jrZE8 | .nc => .jrNcE8 | .c => .jrCE8

theorem exec_jrCc (cc : Cond) (e8 : Byte) (s : State) : exec (jrCc cc e8) s = jumpRelIf cc e8 s := by
  cases cc <;> rfl

theorem primaryEntry_jrCc (cc : Cond) :
    ∃ m, primaryEntry .sm83gk (opJrCc cc) = some ⟨m, .imm8 (jrCc cc), 12, some 8⟩ := by
  cases cc <;> exact ⟨_, rfl⟩

theorem exec_jrCc_taken {cc : Cond} {s : State} (e8 : Byte) (hcc : condHolds cc s.flags = true) (hr : HasRoom 2 s) :
    exec (jrCc cc e8) s = .next { s with
      pc := BitVec.ofInt 16 ((s.pc.toNat : Int) + 2 + e8.toInt), report := 12 } := by
  rw [exec_jrCc, jumpRelIf_room hr, if_pos hcc, relTarget_eq, jumpTo]

theorem exec_jrCc_notTaken {cc : Cond} {s : State} (e8 : Byte) (hcc : condHolds cc s.flags = false)
    (hr : HasRoom 2 s) : exec (jrCc cc e8) s = .next { s with pc := s.pc + 2, report := 8 } := by
  rw [exec_jrCc, jumpRelIf_room hr, hcc, if_neg Bool.false_ne_true, jumpTo]

theorem jrCc_takesItsCondition (cc : Cond) :
    ProfileRow (opJrCc cc) (.imm8 (jrCc cc)) 12 (some 8) ∧
    (∀ (e8 : Byte) (s : State), condHolds cc s.flags = true → HasRoom 2 s →
      exec (jrCc cc e8) s = .next { s with
        pc := BitVec.ofInt 16 ((s.pc.toNat : Int) + 2 + e8.toInt), report := 12 }) ∧
    (∀ (e8 : Byte) (s : State), condHolds cc s.flags = false → HasRoom 2 s →
      exec (jrCc cc e8) s = .next { s with pc := s.pc + 2, report := 8 }) ∧
    RaisesFrom (opJrCc cc) 0xFFFE := by
  obtain ⟨m, hd⟩ := primaryEntry_jrCc cc
  exact ⟨profileRow_of_lookup hd, fun e8 _ => exec_jrCc_taken e8,
    fun e8 _ => exec_jrCc_notTaken e8,
    raisesFrom_of_exec_noRoom hd fun e8 s hr => (exec_jrCc cc e8 s).trans (jumpRelIf_noRoom hr)⟩

/-- Settles O40: the four jumps are cases of one handler, at the opcode whose bits 4:3 name the condition. -/
theorem jrConditionalTakesItsCondition : Obligations.JrConditionalTakesItsCondition := by
  simp only [Obligations.JrConditionalTakesItsCondition, List.forall_mem_cons, List.not_mem_nil, false_imp_iff,
    implies_true, and_true]
  exact ⟨jrCc_takesItsCondition .nz, jrCc_takesItsCondition .z, jrCc_takesItsCondition .nc, jrCc_takesItsCondition .c⟩

end Sys2Proof.Proofs.ProfileControl
end

section
/-! PROOFS of 60_exceptions.md. A step raises OutOfRangeAddress only where the bytes it dispatches on, with the address after
them, pass the top of memory under `fault` (rules R56, R162, R164). -/

namespace Sys2Proof.Proofs.Exceptions

open Sys2Proof.Machine Sys2Proof.Safety Sys2Proof.Laws Sys2Proof.Proofs.StateRules Sys2Proof.Proofs.Encoding
  Sys2Proof.Proofs.ExecutionCore Sys2Proof.Proofs.ProfileLoads

/-! The length of a fetched instruction (rules R70, R71) -/

theorem encode_length (p : Params) (i : Instr) : (encode p i).length = i.length := by
  cases i <;> rfl

/-- A handler that makes encodings makes instructions of its operand bytes and the opcode. -/
theorem length_of_handlerMakes {p : Params} {op : Byte} {hd : Handler} {i : Instr} (hm : MakesEncodingsOf p op hd)
    (hi : HandlerMakes hd i) : i.length = hd.operandLength + 1 := by
  rw [← encode_length p]
  cases hd with
  | implied j =>
    obtain rfl : i = j := hi
    exact congrArg List.length hm.2
  | imm8 f =>
    obtain ⟨v, rfl⟩ := hi
    exact congrArg List.length (hm v).2
  | imm16 f =>
    obtain ⟨w, rfl⟩ := hi
    exact congrArg List.length (hm w).2

theorem length_of_fetchOperands {s : State} {d : Descriptor} {i : Instr}
    (hd : primaryEntry s.cfg.table (s.byteAt s.pc) = some d) (hi : fetchOperands s s.pc d.handler = .ok i) :
    i.length = d.handler.operandLength + 1 :=
  length_of_handlerMakes (row_makesEncodingsOf s.cfg _ (mem_primaryRows hd)) (handlerMakes_of_fetchOperands hi)

/-- With room for its operand bytes a descriptor's fetch reads them (rule R56). -/
theorem fetchOperands_room {s : State} {hd : Handler} (h : HasRoom hd.operandLength s) :
    ∃ i, fetchOperands s s.pc hd = .ok i := by
  cases hd with
  | implied i => exact ⟨i, rfl⟩
  | imm8 f => exact ⟨_, fetchOperands_imm8 h⟩
  | imm16 f => exact ⟨_, fetchOperands_imm16 h⟩

/-! Where OutOfRangeAddress arises (rules R162, R164) -/

/-- With room for `n` bytes but not for one more, the next address is the first past the top. -/
theorem pc_add_eq_top {n : Nat} {s : State} (hr : HasRoom n s) (hnext : ¬ HasRoom (n + 1) s) :
    s.pc.toNat + (n + 1) = 0x10000 := by
  obtain ⟨hfault, htop⟩ := not_hasRoom.mp hnext
  simp only [HasRoom, hfault, reduceCtorEq, false_or] at hr
  omega

/-- At a populated opcode OutOfRangeAddress comes from an operand's address or from the one after the instruction; either is
0x10000. -/
theorem step_populated_outOfRange {s : State} {d : Descriptor} {addr : Nat} (hp : s.byteAt s.pc ≠ s.cfg.prefixOpcode)
    (hd : primaryEntry s.cfg.table (s.byteAt s.pc) = some d) (h : step s = .fault (.outOfRangeAddress addr)) :
    ¬ HasRoom (d.handler.operandLength + 1) s ∧ addr = 0x10000 := by
  rw [step_populated hp hd] at h
  by_cases hr : HasRoom d.handler.operandLength s
  · obtain ⟨i, hi⟩ := fetchOperands_room hr
    rw [hi, orRaise_ok] at h
    obtain ⟨tbl, op, hu⟩ | ⟨hnext, hf⟩ := exec_fault h
    · cases hu
    · rw [length_of_fetchOperands hd hi] at hnext hf
      cases hf
      exact ⟨hnext, pc_add_eq_top hr hnext⟩
  · rw [fetchOperands_noRoom hr, orRaise_error] at h
    cases h
    exact ⟨fun hnext => hr (hasRoom_mono (Nat.le_succ _) hnext), rfl⟩

/-- At the prefix byte OutOfRangeAddress comes from the address of the second byte (rule R105). -/
theorem step_prefixed_outOfRange {s : State} {addr : Nat} (hp : s.byteAt s.pc = s.cfg.prefixOpcode)
    (h : step s = .fault (.outOfRangeAddress addr)) : ¬ HasRoom 1 s ∧ addr = 0x10000 := by
  by_cases hr : HasRoom 1 s
  · rw [step_prefixed hp hr] at h
    cases h
  · rw [step_prefixed_noRoom hp hr] at h
    cases h
    exact ⟨hr, rfl⟩

theorem operandLength_le_two (hd : Handler) : hd.operandLength ≤ 2 := by
  cases hd <;> simp [Handler.operandLength]

/-- Three bytes are the most a step asks room for, so it lacks room only from the last three addresses on. -/
theorem fault_and_pc_near_top {n : Nat} {s : State} (hn : n ≤ 3) (hr : ¬ HasRoom n s) :
    s.cfg.addrWrap = .fault ∧ 0xFFFD ≤ s.pc.toNat :=
  (not_hasRoom.mp hr).imp_right fun _ => by omega

/-- Settles O26: by the byte at `pc`, which is the prefix, an empty entry (whose step raises the other error) or a populated
opcode. -/
theorem outOfRangeOnlyNearTheTop : Obligations.OutOfRangeOnlyNearTheTop := by
  intro s addr h
  by_cases hp : s.byteAt s.pc = s.cfg.prefixOpcode
  · obtain ⟨hr, haddr⟩ := step_prefixed_outOfRange hp h
    obtain ⟨hfault, hpc⟩ := fault_and_pc_near_top (by decide) hr
    exact ⟨hfault, haddr, hpc, .inl hp⟩
  by_cases hop : s.byteAt s.pc ∈ s.cfg.table.populated
  · obtain ⟨d, hd⟩ := Option.ne_none_iff_exists'.mp (mt (primaryEntry_none _ _).mp (not_not_intro hop))
    obtain ⟨hr, haddr⟩ := step_populated_outOfRange hp hd h
    obtain ⟨hfault, hpc⟩ := fault_and_pc_near_top (Nat.succ_le_succ (operandLength_le_two _)) hr
    exact ⟨hfault, haddr, hpc, .inr hop⟩
  · rw [step_empty hp ((primaryEntry_none _ _).mpr hop)] at h
    cases h

end Sys2Proof.Proofs.Exceptions
end

section
/-! PROOFS of 70_reset_and_hazards.md. The cycle report is an output only: FETCH does not read it, and every handler that
completes ends by overwriting it (rules R37, R108, R186). -/

namespace Sys2Proof.Proofs.ResetAndHazards

open Sys2Proof.Machine Sys2Proof.Laws Sys2Proof.Proofs.ProfileLoads

/-! The ends of a handler (rules R107, R108): states that differ in the report only give the same outcome -/

theorem jumpTo_withReport (target : Word) (cycles : Nat) (s : State) (k : Nat) :
    jumpTo target cycles { s with report := k } = jumpTo target cycles s := rfl

theorem finish_eq_of_eq_withReport {n cycles : Nat} {s t : State} (h : t = { s with report := t.report }) :
    finish n cycles t = finish n cycles s := by
  rw [h]
  simp only [finish, jumpTo_withReport]

theorem jumpAbsIf_withReport (cc : Cond) (a16 : Word) (s : State) (k : Nat) :
    jumpAbsIf cc a16 { s with report := k } = jumpAbsIf cc a16 s := by
  simp only [jumpAbsIf, jumpTo_withReport, finish_eq_of_eq_withReport (s := s) (t := { s with report := k }) rfl]

theorem jumpRelIf_withReport (cc : Cond) (e8 : Byte) (s : State) (k : Nat) :
    jumpRelIf cc e8 { s with report := k } = jumpRelIf cc e8 s := by
  simp only [jumpRelIf, jumpTo_withReport]

theorem jrE8_withReport (e8 : Byte) (s : State) (k : Nat) : execJrE8 e8 { s with report := k } = execJrE8 e8 s := by
  simp only [execJrE8, jumpTo_withReport]

/-! The step -/

/-- What a handler writes before its end is computed from fields other than the report. -/
theorem exec_withReport (i : Instr) (s : State) (k : Nat) : exec i { s with report := k } = exec i s := by
  cases i
  case ldIndHlD8 | ldIndHlA | ldAIndHl =>
    simp only [exec_ldIndHlD8, exec_ldIndHlA, exec_ldAIndHl]
    exact finish_eq_of_eq_withReport rfl
  case addAIndHl | adcAIndHl | subIndHl =>
    simp only [exec, execAddAIndHl, execAdcAIndHl, execSubIndHl, aluIndHl_eq]
    exact finish_eq_of_eq_withReport rfl
  case jpA16 => exact jumpTo_withReport _ _ s k
  case jpNzA16 | jpZA16 | jpNcA16 | jpCA16 => exact jumpAbsIf_withReport _ _ s k
  case jrE8 => exact jrE8_withReport _ s k
  case jrNzE8 | jrZE8 | jrNcE8 | jrCE8 => exact jumpRelIf_withReport _ _ s k
  case prefixed | emptyPrimary => rfl
  all_goals exact finish_eq_of_eq_withReport rfl

theorem fetch_withReport (s : State) (k : Nat) : fetch { s with report := k } = fetch s := rfl

/-- Settles O53: the same instruction is fetched, and its handler overwrites the report unread. -/
theorem cycleReportIsNeverRead : Obligations.CycleReportIsNeverRead := by
  intro s k
  simp only [step, fetch_withReport, exec_withReport]

end Sys2Proof.Proofs.ResetAndHazards
end
